-- ==== Sys2Proof/Word.lean ====
section
/-! DEFINITION. The words of the 6502-Emu CORE (00_scope.md R6, R12: every register is 8 bits, every address 16 bits). -/

namespace Sys2Proof

/-- A register, a memory byte or an operand value (R6: 8 bits). -/
abbrev Byte := BitVec 8

/-- A memory address or a value of the program counter (R6: 16 bits). -/
abbrev Addr := BitVec 16

/-- The wide intermediate of the arithmetic unit, and the width of the `rdata` output (R6, R98). -/
abbrev Wide := BitVec 16

/-- A word of the command port (30_encoding.md R91). -/
abbrev CommandWord := BitVec 33

/-- A word of the access port (30_encoding.md R98). -/
abbrev AccessWord := BitVec 31

end Sys2Proof
end

