-- ==== Sys2Proof/Config.lean ====
section
/-! DEFINITION. The parameters of the block (00_scope.md R6). None is left open and no value is free: 93_implementation_defined.md
section 2 says that a model needs no nondeterministic choice. The arithmetic constants stand beside the operation that uses them, in
Machine/Flags.lean. -/

namespace Sys2Proof

/-- How many bytes the address space has (R6, 20_memory.md R60). -/
def Config.memorySize : Nat := 65536

/-- What every byte of memory reads as after reset (10_state.md R45). -/
def Config.resetByte : Byte := 0x00#8

/-- The status register after reset: every flag 0, bit 5 = 1 (10_state.md R45). -/
def Config.resetStatus : Byte := 0x20#8

end Sys2Proof
end

