-- ==== Sys2Proof/Syntax.lean ====
section
/-! DEFINITION. The instructions of the block: one constructor for each row of spec/opcode_table.json (30_encoding.md R108), that is
the 25 execution units and the ten access operations, with every field of their words, don't-care fields included. -/

namespace Sys2Proof

/-- The eleven addressing-mode tags, in the order of 30_encoding.md R93. -/
inductive Mode where
  | immediate
  | absolute
  | zeroPageAbsolute
  | implied
  | accumulator
  | indexed
  | zeroPageIndexed
  | indirect
  | preIndexedIndirect
  | postIndexedIndirect
  | relative
deriving DecidableEq, Repr

/-- The five 8-bit registers of the register file (10_state.md R22). -/
inductive Reg where
  | status
  | stack
  | accumulator
  | indexX
  | indexY
deriving DecidableEq, Repr

/-- The seven flags (10_state.md R26). The reserved bit 5 is not one of them (R27). -/
inductive Flag where
  | carry
  | zero
  | interruptDisable
  | decimal
  | breakOnInterrupt
  | overflow
  | sign
deriving DecidableEq, Repr

/-- The six causes of a precondition violation (60_exceptions.md R293). -/
inductive Cause where
  | reservedFlagIndex
  | flagValueOutOfRange
  | invalidRegisterSelect
  | invalidUnitSelect
  | invalidModeTag
  | invalidAccessOp
deriving DecidableEq, Repr

/-- The Resolved Operand of a command: the fields of 30_encoding.md R90 beside the unit. -/
structure ResolvedOperand where
  mode : Mode
  operandValue : Byte
  effectiveAddress : Addr
deriving DecidableEq, Repr

/-- The fields of an access beside its operation (30_encoding.md R98). `idx` is a register select or a flag index. -/
structure AccessFields where
  idx : BitVec 3
  data : Byte
  addr : Addr
deriving DecidableEq, Repr

/-- One constructor per row of spec/opcode_table.json. -/
inductive Instr where
  | adc (op : ResolvedOperand)
  | and (op : ResolvedOperand)
  | asl (op : ResolvedOperand)
  | lsr (op : ResolvedOperand)
  | bcc (op : ResolvedOperand)
  | bcs (op : ResolvedOperand)
  | beq (op : ResolvedOperand)
  | bne (op : ResolvedOperand)
  | bmi (op : ResolvedOperand)
  | bpl (op : ResolvedOperand)
  | bvc (op : ResolvedOperand)
  | bvs (op : ResolvedOperand)
  | cmp (op : ResolvedOperand)
  | cpx (op : ResolvedOperand)
  | cpy (op : ResolvedOperand)
  | bit (op : ResolvedOperand)
  | clc (op : ResolvedOperand)
  | cld (op : ResolvedOperand)
  | cli (op : ResolvedOperand)
  | clv (op : ResolvedOperand)
  | jmp (op : ResolvedOperand)
  | jsr (op : ResolvedOperand)
  | lda (op : ResolvedOperand)
  | ldx (op : ResolvedOperand)
  | ldy (op : ResolvedOperand)
  | getb (f : AccessFields)
  | setb (f : AccessFields)
  | getf (f : AccessFields)
  | setf (f : AccessFields)
  | getpc (f : AccessFields)
  | setpc (f : AccessFields)
  | rd (f : AccessFields)
  | wr (f : AccessFields)
  | push (f : AccessFields)
  | pop (f : AccessFields)
deriving DecidableEq, Repr

/-- What the environment can issue (00_scope.md R7): a word on the command port, a word on the access port, or reset, which has no
word (70_reset_and_hazards.md R330). -/
inductive Transaction where
  | command (cw : CommandWord)
  | access (aw : AccessWord)
  | reset
deriving DecidableEq, Repr

end Sys2Proof
end

