-- ==== Sys2Proof/Machine/State.lean ====
section
/-! DEFINITION. The state of the block (10_state.md R20), the reasons a step can stop, and the state after reset (10_state.md R45;
70_reset_and_hazards.md R330). -/

namespace Sys2Proof.Machine

/-- Memory as a list of (address, byte) cells, in the canonical form `Memory.wf` of Machine/Ops.lean. -/
abbrev Memory := List Host.Cell

/-- Everything the spec gives the block (10_state.md R20), and the two ports' contents (log 1, log 2). -/
structure State where
  /-- The program counter, the address of the next instruction (R39). -/
  pc : Addr
  /-- The status register P: the seven flags of R26 and the hardwired bit 5 of R27. -/
  p : Byte
  /-- The stack pointer SP (R38). -/
  sp : Byte
  /-- The accumulator A (R23). -/
  a : Byte
  /-- The index register X (R24). -/
  x : Byte
  /-- The index register Y (R25). -/
  y : Byte
  /-- The 65536 bytes of memory (20_memory.md R60). -/
  mem : Memory
  /-- The halt latch (R43). -/
  halted : Bool
  /-- The cause code of the violation that set the latch (R43; 60_exceptions.md R293). -/
  haltCause : BitVec 3
  /-- MODEL's own: the transactions the environment will issue, oldest first (00_scope.md R7, R8; log 1). -/
  pending : List Transaction
  /-- MODEL's own: what the latest transaction returned (30_encoding.md R98; log 2). -/
  rdata : Option Wide
deriving DecidableEq, Repr

/-- Why a run stops with a fault. No meaning and no step raises one: the spec's only error, the precondition violation, is a next
state with the halt latch set (60_exceptions.md R291). -/
inductive Fault where
  /-- Raised only by the checked runs of Safety.lean, when a step leaves the block halted with this cause code: 60_exceptions.md R294
  asks that a halted run be treated as a failed one. Safe. -/
  | preconditionViolation (cause : BitVec 3)
deriving DecidableEq, Repr

/-- Why an instruction has no meaning. -/
inductive Refusal where
  /-- Raised by an arm of exec whose instruction is not modelled yet; no arm of this model raises it. Safe. -/
  | notModelled (mnemonic : String)
deriving DecidableEq, Repr

/-- The construction state (R45): every register zero, P = 0x20, memory zero, not halted. Nothing is pending and nothing has been
returned (DESIGN CHOICE, log 1 and log 2). -/
def State.reset : State :=
  { pc := 0x0000#16
    p := Config.resetStatus
    sp := 0x00#8
    a := 0x00#8
    x := 0x00#8
    y := 0x00#8
    mem := []
    halted := false
    haltCause := 0#3
    pending := []
    rdata := none }

end Sys2Proof.Machine
end

