-- ==== Sys2Proof/Machine/Ops.lean ====
section
/-! DEFINITION. The named operations over memory, registers, flags and the stack, and taking the block's one exception. -/

namespace Sys2Proof.Machine

/-! ## Memory (20_memory.md R60 to R64) -/

/-- What an address that is not listed reads as: the reset contents (10_state.md R45; 20_memory.md R73). -/
def Memory.unlisted : Byte := Config.resetByte

/-- The canonical form: addresses strictly rising and inside the address space, and no byte equal to what an unlisted address reads
as. -/
abbrev Memory.wf (m : Memory) : Prop :=
  List.Pairwise (fun c d => c.1 < d.1) m ∧ ∀ c ∈ m, c.2 ≠ Memory.unlisted ∧ c.1 < Config.memorySize

/-- The byte listed for an address number. -/
def Memory.lookup : Memory → Nat → Byte
  | [], _ => Memory.unlisted
  | (k, b) :: rest, n => if k = n then b else Memory.lookup rest n

/-- Put a cell in its place among rising addresses. -/
def Memory.place (n : Nat) (v : Byte) : Memory → Memory
  | [] => [(n, v)]
  | (k, b) :: rest => if n < k then (n, v) :: (k, b) :: rest else (k, b) :: Memory.place n v rest

/-- `MemRead(addr, 1)` (R62). -/
def Memory.read (m : Memory) (addr : Addr) : Byte := Memory.lookup m addr.toNat

/-- `MemWrite(addr, 1, v)` (R63). Writing what an unlisted address reads as removes the cell. -/
def Memory.write (m : Memory) (addr : Addr) (v : Byte) : Memory :=
  let others := m.filter (fun c => c.1 != addr.toNat)
  if v = Memory.unlisted then others else Memory.place addr.toNat v others

/-- The byte at an address in a state. -/
def State.read (s : State) (addr : Addr) : Byte := Memory.read s.mem addr

/-- Store a byte at an address. It cannot fail (R63). -/
def State.write (s : State) (addr : Addr) (v : Byte) : State := { s with mem := Memory.write s.mem addr v }

/-! ## The register file (10_state.md R22, R27, R37) -/

/-- Bit 5 of P is hardwired to 1 (R27; DEDUCED, the spec's decision D8, log 11); the seven flags are as given. -/
def hardwired (v : Byte) : Byte := v ||| 0x20#8

/-- `x[r]`. Bit 5 of Status reads 1 (R26, R37). -/
def State.readReg (s : State) : Reg → Byte
  | .status => hardwired s.p
  | .stack => s.sp
  | .accumulator => s.a
  | .indexX => s.x
  | .indexY => s.y

/-- `x[r] <- v`. A write of Status stores `v | 0x20` (R37). -/
def State.writeReg (s : State) (r : Reg) (v : Byte) : State :=
  match r with
  | .status => { s with p := hardwired v }
  | .stack => { s with sp := v }
  | .accumulator => { s with a := v }
  | .indexX => { s with x := v }
  | .indexY => { s with y := v }

/-- `pc <- target` (R39: every value is legal). -/
def State.writePc (s : State) (target : Addr) : State := { s with pc := target }

/-! ## The status flag accessor (10_state.md R26, R28, R29) -/

/-- The bit of P a flag stands at (R26). -/
def flagIndex : Flag → Nat
  | .carry => 0
  | .zero => 1
  | .interruptDisable => 2
  | .decimal => 3
  | .breakOnInterrupt => 4
  | .overflow => 6
  | .sign => 7

/-- The flag read of R29. -/
def State.flag (s : State) (f : Flag) : Bool := s.p.getLsbD (flagIndex f)

/-- `(P & ~(1 << f)) | (zext_8(b) << f)` (R28). -/
def withFlag (p : Byte) (f : Flag) (b : Bool) : Byte :=
  (p &&& ~~~(1#8 <<< (flagIndex f))) ||| ((BitVec.ofBool b).setWidth 8 <<< (flagIndex f))

/-- `P.f <- b` (R28). -/
def State.setFlag (s : State) (f : Flag) (b : Bool) : State := { s with p := withFlag s.p f b }

/-! ## The stack primitives (20_memory.md R70, R71) -/

/-- `0x0100 + zext_16(SP)`: the stack byte a stack pointer points at (10_state.md R38). -/
def stackAddr (sp : Byte) : Addr := 0x0100#16 + sp.setWidth 16

/-- `Push(v)`: store, then decrement modulo 256 (R70). -/
def State.push (s : State) (v : Byte) : State :=
  { s.write (stackAddr s.sp) v with sp := s.sp - 1 }

/-- The state half of `Pop()`: increment modulo 256 (R71). -/
def State.popped (s : State) : State := { s with sp := s.sp + 1 }

/-- The value half of `Pop()`: the byte at the incremented stack pointer (R71; DEDUCED, the spec's decision D15, log 18). -/
def State.popValue (s : State) : Byte := s.read (stackAddr (s.sp + 1))

/-! ## Returning a value (30_encoding.md R98) -/

/-- A read operation returns its result on `rdata`. -/
def State.returning (s : State) (v : Wide) : State := { s with rdata := some v }

/-! ## Taking the exception (60_exceptions.md R291, R293, R295) -/

/-- The code of a cause (R293). -/
def causeCode : Cause → BitVec 3
  | .reservedFlagIndex => 1
  | .flagValueOutOfRange => 2
  | .invalidRegisterSelect => 3
  | .invalidUnitSelect => 4
  | .invalidModeTag => 5
  | .invalidAccessOp => 6

/-- `raise PreconditionViolation(cause)`: the latch is set and the cause recorded; nothing else is written, nothing is saved and
control goes nowhere (R291, R295; DEDUCED, the spec's decision D7, log 4). There is no return from it but reset (R294, R296). -/
def State.raise (s : State) (c : Cause) : State := { s with halted := true, haltCause := causeCode c }

/-! ## Reset (70_reset_and_hazards.md R330) -/

/-- The reset transaction: the construction state, whatever the state was, halted or not. What the environment will issue after it is
not the block's and stays (DESIGN CHOICE, log 19). -/
def State.afterReset (rest : List Transaction) : State := { State.reset with pending := rest }

end Sys2Proof.Machine
end

