-- ==== Sys2Proof/Machine/Operands.lean ====
section
/-! DEFINITION. What the fields of an instruction select: a register, a flag, a flag value, and where a shift writes its result. -/

namespace Sys2Proof.Machine

/-- The register a select code names; 5, 6 and 7 are violations with cause 3 (30_encoding.md R100, R102). -/
def regOfSelect (idx : BitVec 3) : Except Cause Reg :=
  match idx.toNat with
  | 0 => .ok .status
  | 1 => .ok .stack
  | 2 => .ok .accumulator
  | 3 => .ok .indexX
  | 4 => .ok .indexY
  | _ => .error .invalidRegisterSelect

/-- The flag an index names; 5 is the reserved bit and a violation with cause 1 (30_encoding.md R101, 60_exceptions.md R292). -/
def flagOfIndex (idx : BitVec 3) : Except Cause Flag :=
  match idx.toNat with
  | 0 => .ok .carry
  | 1 => .ok .zero
  | 2 => .ok .interruptDisable
  | 3 => .ok .decimal
  | 4 => .ok .breakOnInterrupt
  | 5 => .error .reservedFlagIndex
  | 6 => .ok .overflow
  | _ => .ok .sign

/-- The value a flag is set to; above 1 a violation with cause 2 (30_encoding.md R102, 40_access_port.md R133). -/
def flagValueOf (data : Byte) : Except Cause Bool :=
  match data.toNat with
  | 0 => .ok false
  | 1 => .ok true
  | _ => .error .flagValueOutOfRange

/-- The write-back multiplexer of the shift units: the accumulator for the Accumulator tag, `mem[ea]` for each of the ten other tags
(42_shift.md R170). -/
def State.writeBack (s : State) (op : ResolvedOperand) (r : Byte) : State :=
  match op.mode with
  | .accumulator => s.writeReg .accumulator r
  | .immediate | .absolute | .zeroPageAbsolute | .implied | .indexed | .zeroPageIndexed | .indirect | .preIndexedIndirect
  | .postIndexedIndirect | .relative => s.write op.effectiveAddress r

end Sys2Proof.Machine
end

