-- ==== Sys2Proof/Machine/Access.lean ====
section
/-! DEFINITION. The ten access operations (40_access_port.md). A field an operation does not use has no effect. -/

namespace Sys2Proof.Machine

/-- GETB (R130). -/
def execGetb (f : AccessFields) (s : State) : Host.Outcome State Fault Refusal :=
  match regOfSelect f.idx with
  | .error c => .next (s.raise c)
  | .ok r => .next (s.returning ((s.readReg r).setWidth 16))

/-- SETB (R131). -/
def execSetb (f : AccessFields) (s : State) : Host.Outcome State Fault Refusal :=
  match regOfSelect f.idx with
  | .error c => .next (s.raise c)
  | .ok r => .next (s.writeReg r f.data)

/-- GETF (R132). -/
def execGetf (f : AccessFields) (s : State) : Host.Outcome State Fault Refusal :=
  match flagOfIndex f.idx with
  | .error c => .next (s.raise c)
  | .ok fl => .next (s.returning ((BitVec.ofBool (s.flag fl)).setWidth 16))

/-- SETF (R133): the index is checked before the value. -/
def execSetf (f : AccessFields) (s : State) : Host.Outcome State Fault Refusal :=
  match flagOfIndex f.idx with
  | .error c => .next (s.raise c)
  | .ok fl =>
    match flagValueOf f.data with
    | .error c => .next (s.raise c)
    | .ok b => .next (s.setFlag fl b)

/-- GETPC (R134). -/
def execGetpc (_f : AccessFields) (s : State) : Host.Outcome State Fault Refusal := .next (s.returning s.pc)

/-- SETPC (R135). -/
def execSetpc (f : AccessFields) (s : State) : Host.Outcome State Fault Refusal := .next (s.writePc f.addr)

/-- RD (R136). -/
def execRd (f : AccessFields) (s : State) : Host.Outcome State Fault Refusal :=
  .next (s.returning ((s.read f.addr).setWidth 16))

/-- WR (R137). -/
def execWr (f : AccessFields) (s : State) : Host.Outcome State Fault Refusal := .next (s.write f.addr f.data)

/-- PUSH (R138). -/
def execPush (f : AccessFields) (s : State) : Host.Outcome State Fault Refusal := .next (s.push f.data)

/-- POP (R139). -/
def execPop (_f : AccessFields) (s : State) : Host.Outcome State Fault Refusal :=
  .next (s.popped.returning (s.popValue.setWidth 16))

end Sys2Proof.Machine
end

