-- ==== Sys2Proof/Machine/Flags.lean ====
section
/-! DEFINITION. The flag computations and the sums behind them (00_scope.md R13; 41_arith_logic.md R150 to R155; 42_shift.md R171,
R172; 44_compare_bit.md R210). -/

namespace Sys2Proof.Machine

/-- Sign is bit 7 of a value (10_state.md R36). -/
def signOf (v : Byte) : Bool := v.getLsbD 7

/-- Zero is 1 exactly when the value is 0 (10_state.md R31; 90_conflicts.md C4). -/
def zeroOf (v : Byte) : Bool := v == 0x00#8

/-- Sign and Zero from one value: N, then Z. -/
def State.setSignZero (s : State) (v : Byte) : State := (s.setFlag .sign (signOf v)).setFlag .zero (zeroOf v)

/-! ## Add with carry (41_arith_logic.md R150) -/

/-- `sum = a + b + c` on 16 bits, before any correction. -/
def adcSum (a m : Byte) (c : Bool) : Wide := a.setWidth 16 + m.setWidth 16 + (BitVec.ofBool c).setWidth 16

/-- `(a[3:0] + b[3:0] + c) > 9`: the low digits need a correction. -/
def adcLowExceeds (a m : Byte) (c : Bool) : Bool := decide (a.toNat % 16 + m.toNat % 16 + c.toNat > 9)

/-- The sum from which Sign and Overflow are taken: the plain sum in binary mode, in decimal mode the sum after the low-digit
correction and before the high-digit one (R150; DEDUCED, the spec's decision D12; log 15). -/
def adcSigned (dec : Bool) (a m : Byte) (c : Bool) : Wide :=
  if dec && adcLowExceeds a m c then adcSum a m c + 6 else adcSum a m c

/-- The sum whose low byte is stored: in decimal mode after both corrections. -/
def adcFinal (dec : Bool) (a m : Byte) (c : Bool) : Wide :=
  if dec && decide (adcSigned dec a m c > 0x99#16) then adcSigned dec a m c + 0x60 else adcSigned dec a m c

/-- Carry: the final sum exceeds 0x99 in decimal mode, 0xFF in binary mode. -/
def adcCarry (dec : Bool) (a m : Byte) (c : Bool) : Bool :=
  if dec then decide (adcFinal dec a m c > 0x99#16) else decide (adcFinal dec a m c > 0xFF#16)

/-- Zero: the low 8 bits of the sum before any correction are 0 (R150; DEDUCED, the spec's decision D11; log 14). -/
def adcZero (a m : Byte) (c : Bool) : Bool := zeroOf ((adcSum a m c).setWidth 8)

/-- Overflow: the operands have the same bit 7 and the sum has the other (R154). -/
def overflowOf (a m : Byte) (sum : Wide) : Bool :=
  !((a ^^^ m).getLsbD 7) && ((a.setWidth 16 ^^^ sum).getLsbD 7)

/-! ## The shifts (42_shift.md R171, R172) -/

/-- `zext_16(m) << 1`. -/
def aslWide (m : Byte) : Wide := m.setWidth 16 <<< 1

/-- `m >> 1`, filled with 0. -/
def lsrResult (m : Byte) : Byte := m >>> 1

/-! ## The compares (44_compare_bit.md R210) -/

/-- `Compare(r)`: C is 1 when there is no borrow, N and Z come from the truncated difference. No register is written and `P.D` is not
read. -/
def State.compare (s : State) (r m : Byte) : State :=
  ((s.setFlag .carry (decide (m.toNat ≤ r.toNat))).setFlag .sign (signOf (r - m))).setFlag .zero (zeroOf (r - m))

end Sys2Proof.Machine
end

