-- ==== Sys2Proof/Machine/ArithLogic.lean ====
section
/-! DEFINITION. ADC and AND (41_arith_logic.md). -/

namespace Sys2Proof.Machine

/-- ADC (R150). `A`, the operand, the carry and the mode are read before anything is written; `P.D` is not written. -/
def execAdc (op : ResolvedOperand) (s : State) : Host.Outcome State Fault Refusal :=
  let a := s.readReg .accumulator
  let m := op.operandValue
  let c := s.flag .carry
  let dec := s.flag .decimal
  let s := s.setFlag .zero (adcZero a m c)
  let s := s.setFlag .sign ((adcSigned dec a m c).getLsbD 7)
  let s := s.setFlag .overflow (overflowOf a m (adcSigned dec a m c))
  let s := s.setFlag .carry (adcCarry dec a m c)
  .next (s.writeReg .accumulator ((adcFinal dec a m c).setWidth 8))

/-- AND (R151). -/
def execAnd (op : ResolvedOperand) (s : State) : Host.Outcome State Fault Refusal :=
  let r := s.readReg .accumulator &&& op.operandValue
  .next ((s.setSignZero r).writeReg .accumulator r)

end Sys2Proof.Machine
end

