-- ==== Sys2Proof/Machine/Branch.lean ====
section
/-! DEFINITION. The eight conditional branches (43_branch.md). -/

namespace Sys2Proof.Machine

/-- `if cond: pc <- ea` (R190). The target is the effective address as it stands (DEDUCED, the spec's decision D10, log 13); a branch
not taken writes nothing. -/
def State.branch (s : State) (cond : Bool) (op : ResolvedOperand) : State :=
  if cond then s.writePc op.effectiveAddress else s

/-- BCC (R191). -/
def execBcc (op : ResolvedOperand) (s : State) : Host.Outcome State Fault Refusal := .next (s.branch (!s.flag .carry) op)

/-- BCS (R192). -/
def execBcs (op : ResolvedOperand) (s : State) : Host.Outcome State Fault Refusal := .next (s.branch (s.flag .carry) op)

/-- BEQ (R193). -/
def execBeq (op : ResolvedOperand) (s : State) : Host.Outcome State Fault Refusal := .next (s.branch (s.flag .zero) op)

/-- BNE (R194). -/
def execBne (op : ResolvedOperand) (s : State) : Host.Outcome State Fault Refusal := .next (s.branch (!s.flag .zero) op)

/-- BMI (R195). -/
def execBmi (op : ResolvedOperand) (s : State) : Host.Outcome State Fault Refusal := .next (s.branch (s.flag .sign) op)

/-- BPL (R196). -/
def execBpl (op : ResolvedOperand) (s : State) : Host.Outcome State Fault Refusal := .next (s.branch (!s.flag .sign) op)

/-- BVC (R197). -/
def execBvc (op : ResolvedOperand) (s : State) : Host.Outcome State Fault Refusal := .next (s.branch (!s.flag .overflow) op)

/-- BVS (R198). -/
def execBvs (op : ResolvedOperand) (s : State) : Host.Outcome State Fault Refusal := .next (s.branch (s.flag .overflow) op)

end Sys2Proof.Machine
end

