-- ==== Sys2Proof/Machine/CompareBit.lean ====
section
/-! DEFINITION. CMP, CPX, CPY and BIT (44_compare_bit.md). The value compared or tested is the operand value (DEDUCED, the spec's decision D9;
log 12). -/

namespace Sys2Proof.Machine

/-- CMP: `Compare(A)` (R211). -/
def execCmp (op : ResolvedOperand) (s : State) : Host.Outcome State Fault Refusal :=
  .next (s.compare (s.readReg .accumulator) op.operandValue)

/-- CPX: `Compare(X)` (R212). -/
def execCpx (op : ResolvedOperand) (s : State) : Host.Outcome State Fault Refusal :=
  .next (s.compare (s.readReg .indexX) op.operandValue)

/-- CPY: `Compare(Y)` (R213). -/
def execCpy (op : ResolvedOperand) (s : State) : Host.Outcome State Fault Refusal :=
  .next (s.compare (s.readReg .indexY) op.operandValue)

/-- BIT: V and N are bits 6 and 7 of the tested value itself, Z comes from its AND with `A` (R214). -/
def execBit (op : ResolvedOperand) (s : State) : Host.Outcome State Fault Refusal :=
  let m := op.operandValue
  let z := zeroOf (m &&& s.readReg .accumulator)
  .next (((s.setFlag .overflow (m.getLsbD 6)).setFlag .sign (m.getLsbD 7)).setFlag .zero z)

end Sys2Proof.Machine
end

