-- ==== Sys2Proof/Machine/FlagClear.lean ====
section
/-! DEFINITION. CLC, CLD, CLI and CLV (45_flag_clear.md): each clears one flag (R230) and reads no field of its word. -/

namespace Sys2Proof.Machine

/-- CLC (R231). -/
def execClc (_op : ResolvedOperand) (s : State) : Host.Outcome State Fault Refusal := .next (s.setFlag .carry false)

/-- CLD (R232). -/
def execCld (_op : ResolvedOperand) (s : State) : Host.Outcome State Fault Refusal := .next (s.setFlag .decimal false)

/-- CLI (R233). It enables nothing: there is no interrupt (60_exceptions.md R300). -/
def execCli (_op : ResolvedOperand) (s : State) : Host.Outcome State Fault Refusal :=
  .next (s.setFlag .interruptDisable false)

/-- CLV (R234). -/
def execClv (_op : ResolvedOperand) (s : State) : Host.Outcome State Fault Refusal := .next (s.setFlag .overflow false)

end Sys2Proof.Machine
end

