-- ==== Sys2Proof/Machine/Jump.lean ====
section
/-! DEFINITION. JMP and JSR (46_jump.md). -/

namespace Sys2Proof.Machine

/-- JMP (R250). No pointer is followed, whatever the tag. -/
def execJmp (op : ResolvedOperand) (s : State) : Host.Outcome State Fault Refusal := .next (s.writePc op.effectiveAddress)

/-- JSR (R251): push `pc - 1` (modulo 2^16; DEDUCED, the spec's decision D14, log 17), high byte first, then jump. The decremented `pc` is only an intermediate. -/
def execJsr (op : ResolvedOperand) (s : State) : Host.Outcome State Fault Refusal :=
  let r : Addr := s.pc - 1
  let s := s.push (r.extractLsb' 8 8)
  let s := s.push (r.extractLsb' 0 8)
  .next (s.writePc op.effectiveAddress)

end Sys2Proof.Machine
end

