-- ==== Sys2Proof/Machine/Load.lean ====
section
/-! DEFINITION. LDA, LDX and LDY (47_load.md). A load reads no memory: it copies the operand value (R270; DEDUCED, the
spec's decision D9, log 12). -/

namespace Sys2Proof.Machine

/-- `Load(r)` (R270). -/
def State.load (s : State) (r : Reg) (m : Byte) : State := (s.writeReg r m).setSignZero m

/-- LDA (R271). -/
def execLda (op : ResolvedOperand) (s : State) : Host.Outcome State Fault Refusal := .next (s.load .accumulator op.operandValue)

/-- LDX (R272). -/
def execLdx (op : ResolvedOperand) (s : State) : Host.Outcome State Fault Refusal := .next (s.load .indexX op.operandValue)

/-- LDY (R273). -/
def execLdy (op : ResolvedOperand) (s : State) : Host.Outcome State Fault Refusal := .next (s.load .indexY op.operandValue)

end Sys2Proof.Machine
end

