-- ==== Sys2Proof/Machine/Shift.lean ====
section
/-! DEFINITION. ASL and LSR (42_shift.md). The value shifted is the operand value, whatever the tag (R170; DEDUCED, the
spec's decision D9, log 12). -/

namespace Sys2Proof.Machine

/-- ASL (R171): C is bit 8 of the wide result, N and Z come from its low byte. -/
def execAsl (op : ResolvedOperand) (s : State) : Host.Outcome State Fault Refusal :=
  let w := aslWide op.operandValue
  let r : Byte := w.setWidth 8
  .next (((s.setFlag .carry (w.getLsbD 8)).setSignZero r).writeBack op r)

/-- LSR (R172): C is bit 0 of the operand, N and Z come from the result. -/
def execLsr (op : ResolvedOperand) (s : State) : Host.Outcome State Fault Refusal :=
  let r := lsrResult op.operandValue
  .next (((s.setFlag .carry (op.operandValue.getLsbD 0)).setSignZero r).writeBack op r)

end Sys2Proof.Machine
end

