-- ==== Sys2Proof/Machine/Dispatch.lean ====
section
/-! DEFINITION. Which meaning each instruction has: one arm per row of spec/opcode_table.json. -/

namespace Sys2Proof.Machine

def exec (i : Instr) (s : State) : Host.Outcome State Fault Refusal :=
  match i with
  | .adc op => Sys2Proof.Machine.execAdc op s
  | .and op => Sys2Proof.Machine.execAnd op s
  | .asl op => Sys2Proof.Machine.execAsl op s
  | .lsr op => Sys2Proof.Machine.execLsr op s
  | .bcc op => Sys2Proof.Machine.execBcc op s
  | .bcs op => Sys2Proof.Machine.execBcs op s
  | .beq op => Sys2Proof.Machine.execBeq op s
  | .bne op => Sys2Proof.Machine.execBne op s
  | .bmi op => Sys2Proof.Machine.execBmi op s
  | .bpl op => Sys2Proof.Machine.execBpl op s
  | .bvc op => Sys2Proof.Machine.execBvc op s
  | .bvs op => Sys2Proof.Machine.execBvs op s
  | .cmp op => Sys2Proof.Machine.execCmp op s
  | .cpx op => Sys2Proof.Machine.execCpx op s
  | .cpy op => Sys2Proof.Machine.execCpy op s
  | .bit op => Sys2Proof.Machine.execBit op s
  | .clc op => Sys2Proof.Machine.execClc op s
  | .cld op => Sys2Proof.Machine.execCld op s
  | .cli op => Sys2Proof.Machine.execCli op s
  | .clv op => Sys2Proof.Machine.execClv op s
  | .jmp op => Sys2Proof.Machine.execJmp op s
  | .jsr op => Sys2Proof.Machine.execJsr op s
  | .lda op => Sys2Proof.Machine.execLda op s
  | .ldx op => Sys2Proof.Machine.execLdx op s
  | .ldy op => Sys2Proof.Machine.execLdy op s
  | .getb f => Sys2Proof.Machine.execGetb f s
  | .setb f => Sys2Proof.Machine.execSetb f s
  | .getf f => Sys2Proof.Machine.execGetf f s
  | .setf f => Sys2Proof.Machine.execSetf f s
  | .getpc f => Sys2Proof.Machine.execGetpc f s
  | .setpc f => Sys2Proof.Machine.execSetpc f s
  | .rd f => Sys2Proof.Machine.execRd f s
  | .wr f => Sys2Proof.Machine.execWr f s
  | .push f => Sys2Proof.Machine.execPush f s
  | .pop f => Sys2Proof.Machine.execPop f s

end Sys2Proof.Machine
end

