-- ==== Sys2Proof/WellFormed.lean ====
section
/-! DEFINITION. Which instructions hold only codes the block accepts (30_encoding.md R102; 70_reset_and_hazards.md R345). A unit
code, a mode code and an access code cannot be wrong in a term of `Instr`: the decoder refuses them. What is left are the register
select, the flag index and the flag value. The meaning of an ill-formed access is the precondition violation, not a refusal (DESIGN
CHOICE, log 24). -/

namespace Sys2Proof

/-- Register selects 0 to 4 name a register (R100). -/
def registerSelectOk (idx : BitVec 3) : Bool := decide (idx.toNat ≤ 4)

/-- Every flag index but 5 names a flag (R101). -/
def flagIndexOk (idx : BitVec 3) : Bool := decide (idx.toNat ≠ 5)

/-- A flag is written with 0 or 1 (R102, cause 2). -/
def flagValueOk (data : Byte) : Bool := decide (data.toNat ≤ 1)

/-- No field of the instruction holds an unassigned code (R102, R345). Every command is well formed (R97). -/
def Instr.wellFormed : Instr → Bool
  | .getb f => registerSelectOk f.idx
  | .setb f => registerSelectOk f.idx
  | .getf f => flagIndexOk f.idx
  | .setf f => flagIndexOk f.idx && flagValueOk f.data
  | .adc _ | .and _ | .asl _ | .lsr _ => true
  | .bcc _ | .bcs _ | .beq _ | .bne _ | .bmi _ | .bpl _ | .bvc _ | .bvs _ => true
  | .cmp _ | .cpx _ | .cpy _ | .bit _ => true
  | .clc _ | .cld _ | .cli _ | .clv _ => true
  | .jmp _ | .jsr _ | .lda _ | .ldx _ | .ldy _ => true
  | .getpc _ | .setpc _ | .rd _ | .wr _ | .push _ | .pop _ => true

end Sys2Proof
end

