-- ==== Sys2Proof/Decode.lean ====
section
/-! DEFINITION. Decoding of the two ports' words (30_encoding.md R91 to R106), total on any word and rejecting by the cause of R102,
and the encoder written from the same tables. -/

namespace Sys2Proof

/-! ## The fields of a command word (R91) -/

/-- `unit = CW[32:28]`. -/
def unitField (cw : CommandWord) : BitVec 5 := cw.extractLsb' 28 5

/-- `mode = CW[27:24]`. -/
def modeField (cw : CommandWord) : BitVec 4 := cw.extractLsb' 24 4

/-- `operandValue = CW[23:16]`. -/
def operandValueField (cw : CommandWord) : Byte := cw.extractLsb' 16 8

/-- `effectiveAddress = CW[15:0]`. -/
def effectiveAddressField (cw : CommandWord) : Addr := cw.extractLsb' 0 16

/-! ## The fields of an access word (R98) -/

/-- `aop = AW[30:27]`. -/
def accessOpField (aw : AccessWord) : BitVec 4 := aw.extractLsb' 27 4

/-- `idx = AW[26:24]`. -/
def idxField (aw : AccessWord) : BitVec 3 := aw.extractLsb' 24 3

/-- `data = AW[23:16]`. -/
def dataField (aw : AccessWord) : Byte := aw.extractLsb' 16 8

/-- `addr = AW[15:0]`. -/
def addrField (aw : AccessWord) : Addr := aw.extractLsb' 0 16

/-- The three fields an access operation receives. -/
def accessFields (aw : AccessWord) : AccessFields :=
  { idx := idxField aw, data := dataField aw, addr := addrField aw }

/-! ## The code tables -/

/-- The mode tags by code: code n is the n-th entry (R93). -/
def modeTable : List Mode :=
  [.immediate, .absolute, .zeroPageAbsolute, .implied, .accumulator, .indexed, .zeroPageIndexed, .indirect,
    .preIndexedIndirect, .postIndexedIndirect, .relative]

/-- The execution units by code: code n is the n-th entry (R92). -/
def unitTable : List (ResolvedOperand → Instr) :=
  [.adc, .and, .asl, .lsr, .bcc, .bcs, .beq, .bne, .bmi, .bpl, .bvc, .bvs, .cmp, .cpx, .cpy, .bit, .clc, .cld, .cli, .clv,
    .jmp, .jsr, .lda, .ldx, .ldy]

/-- The access operations by code: code n is the n-th entry (R99). -/
def accessTable : List (AccessFields → Instr) :=
  [.getb, .setb, .getf, .setf, .getpc, .setpc, .rd, .wr, .push, .pop]

/-- The tag a mode code stands for; codes 11 to 15 are unassigned (R93, R102). -/
def modeOfCode (code : BitVec 4) : Option Mode := modeTable[code.toNat]?

/-- The unit a unit code stands for; codes 25 to 31 are unassigned (R92, R102). -/
def unitOfCode (code : BitVec 5) : Option (ResolvedOperand → Instr) := unitTable[code.toNat]?

/-- The operation an access code stands for; codes 10 to 15 are unassigned (R99, R102). -/
def accessOfCode (code : BitVec 4) : Option (AccessFields → Instr) := accessTable[code.toNat]?

/-! ## Decoding -/

/-- Decode a command word: the unit is checked first, then the mode (R105, R102, R297). -/
def decodeCommand (cw : CommandWord) : Except Cause Instr :=
  match unitOfCode (unitField cw) with
  | none => .error .invalidUnitSelect
  | some unit =>
    match modeOfCode (modeField cw) with
    | none => .error .invalidModeTag
    | some mode =>
      .ok (unit
        { mode := mode, operandValue := operandValueField cw, effectiveAddress := effectiveAddressField cw })

/-- Decode an access word. Only the operation is checked here: a register select, a flag index and a flag value are checked by the
operation that uses them, after it (R102: "`aop`, then `idx`, then `data`"; R130 to R133). -/
def decodeAccess (aw : AccessWord) : Except Cause Instr :=
  match accessOfCode (accessOpField aw) with
  | none => .error .invalidAccessOp
  | some op => .ok (op (accessFields aw))

/-! ## Encoding -/

/-- The code of a mode tag (R93). -/
def modeCode : Mode → BitVec 4
  | .immediate => 0
  | .absolute => 1
  | .zeroPageAbsolute => 2
  | .implied => 3
  | .accumulator => 4
  | .indexed => 5
  | .zeroPageIndexed => 6
  | .indirect => 7
  | .preIndexedIndirect => 8
  | .postIndexedIndirect => 9
  | .relative => 10

/-- `CW = {unit[4:0], mode[3:0], operandValue[7:0], effectiveAddress[15:0]}` (R91). -/
def commandWord (unit : BitVec 5) (op : ResolvedOperand) : CommandWord :=
  unit ++ modeCode op.mode ++ op.operandValue ++ op.effectiveAddress

/-- `AW = {aop[3:0], idx[2:0], data[7:0], addr[15:0]}` (R98). -/
def accessWord (aop : BitVec 4) (f : AccessFields) : AccessWord :=
  aop ++ f.idx ++ f.data ++ f.addr

/-- The word of an instruction on its port, with the unit codes of R92 and the access codes of R99. -/
def encode : Instr → Transaction
  | .adc op => .command (commandWord 0 op)
  | .and op => .command (commandWord 1 op)
  | .asl op => .command (commandWord 2 op)
  | .lsr op => .command (commandWord 3 op)
  | .bcc op => .command (commandWord 4 op)
  | .bcs op => .command (commandWord 5 op)
  | .beq op => .command (commandWord 6 op)
  | .bne op => .command (commandWord 7 op)
  | .bmi op => .command (commandWord 8 op)
  | .bpl op => .command (commandWord 9 op)
  | .bvc op => .command (commandWord 10 op)
  | .bvs op => .command (commandWord 11 op)
  | .cmp op => .command (commandWord 12 op)
  | .cpx op => .command (commandWord 13 op)
  | .cpy op => .command (commandWord 14 op)
  | .bit op => .command (commandWord 15 op)
  | .clc op => .command (commandWord 16 op)
  | .cld op => .command (commandWord 17 op)
  | .cli op => .command (commandWord 18 op)
  | .clv op => .command (commandWord 19 op)
  | .jmp op => .command (commandWord 20 op)
  | .jsr op => .command (commandWord 21 op)
  | .lda op => .command (commandWord 22 op)
  | .ldx op => .command (commandWord 23 op)
  | .ldy op => .command (commandWord 24 op)
  | .getb f => .access (accessWord 0 f)
  | .setb f => .access (accessWord 1 f)
  | .getf f => .access (accessWord 2 f)
  | .setf f => .access (accessWord 3 f)
  | .getpc f => .access (accessWord 4 f)
  | .setpc f => .access (accessWord 5 f)
  | .rd f => .access (accessWord 6 f)
  | .wr f => .access (accessWord 7 f)
  | .push f => .access (accessWord 8 f)
  | .pop f => .access (accessWord 9 f)

/-- What a transaction asks the block to run: the decoder of its port. Reset is no instruction and gives none. -/
def decodeTransaction : Transaction → Option (Except Cause Instr)
  | .command cw => some (decodeCommand cw)
  | .access aw => some (decodeAccess aw)
  | .reset => none

/-! ## The host's view of the opcode table (DESIGN CHOICE, log 8) -/

/-- The port a row of the opcode table belongs to, told by how many bits the table gives it: the rows of format ACC are 31-bit words
and fit in 32 bits, the rows of format CMD are 33-bit words and do not (R108). -/
def tableTransaction (nbits w : Nat) : Transaction :=
  if nbits ≤ 32 then .access (BitVec.ofNat 31 w) else .command (BitVec.ofNat 33 w)

/-- The instruction the decoder reads from a word of the opcode table; none where the word is wider than its port or the decoder
refuses it. -/
def decodeTableWord (nbits w : Nat) : Option Instr :=
  if nbits ≤ 32 then
    if w < 2 ^ 31 then (decodeAccess (BitVec.ofNat 31 w)).toOption else none
  else
    if w < 2 ^ 33 then (decodeCommand (BitVec.ofNat 33 w)).toOption else none

end Sys2Proof
end

