-- ==== Sys2Proof/Machine/Port.lean ====
section
/-! DEFINITION. What the block does with the next transaction before an instruction's meaning runs: reset, the halted state, and the
decode violations (00_scope.md R7; 60_exceptions.md R291, R294; 30_encoding.md R102, R105). -/

namespace Sys2Proof.Machine

/-- What the next transaction comes to. -/
inductive Issued where
  /-- Nothing is issued. -/
  | idle
  /-- The transaction is settled without an instruction: reset, ignored, or illegal. -/
  | settled (s : State)
  /-- The instruction to run, and the state it runs in. -/
  | run (i : Instr) (s : State)
deriving DecidableEq, Repr

/-- The environment has issued its next transaction: it is no longer pending, and nothing has been returned for it yet (DESIGN CHOICE, log 2). -/
def State.accept (s : State) (rest : List Transaction) : State := { s with pending := rest, rdata := none }

/-- A word on a port: ignored while halted (R294), otherwise decoded, and a word that does not decode is a violation (R291). -/
def offered (halted : Bool) (decoded : Except Cause Instr) (s : State) : Issued :=
  if halted then .settled s
  else
    match decoded with
    | .error c => .settled (s.raise c)
    | .ok i => .run i s

/-- What the next pending transaction comes to. -/
def issued (s : State) : Issued :=
  match s.pending with
  | [] => .idle
  | .reset :: rest => .settled (State.afterReset rest)
  | .command cw :: rest => offered s.halted (decodeCommand cw) (s.accept rest)
  | .access aw :: rest => offered s.halted (decodeAccess aw) (s.accept rest)

end Sys2Proof.Machine
end

