-- ==== Sys2Proof/Machine/Step.lean ====
section
/-! DEFINITION. One step: the block carries out the next transaction to completion (00_scope.md R7), or holds its state when none is
issued (60_exceptions.md R310). -/

namespace Sys2Proof.Machine

/-- One transaction. -/
def step (s : State) : Host.Outcome State Fault Refusal :=
  match issued s with
  | .idle => .next s
  | .settled t => .next t
  | .run i t => exec i t

/-- The state in which the environment's next transaction is a word of the opcode table (DESIGN CHOICE, log 9). -/
def State.withFetchWord (s : State) (nbits w : Nat) : State := { s with pending := tableTransaction nbits w :: s.pending }

end Sys2Proof.Machine
end

