-- ==== Sys2Proof/Machine/Harness.lean ====
section
/-! DEFINITION. The reference harness RH (95_test_vectors.md section 4.1; 92_eei_decisions.md D23). It is no part of the block and no
step calls it: it plays the driver on top of `step`, through the ports alone (log 22). -/

namespace Sys2Proof.Machine

/-- An entry of a harness program: `(unit, tag, argument, length)`. -/
structure HarnessEntry where
  unit : BitVec 5
  tag : Mode
  arg : Addr
  length : Nat
deriving DecidableEq, Repr

/-- A harness program: a finite table from addresses to entries. It is held by the harness, not in the block's memory. -/
abbrev HarnessProgram := List (Addr × HarnessEntry)

/-- How a harness run ends. -/
inductive HarnessEnd where
  /-- `pc` has no entry: the normal end. -/
  | finished (s : State)
  /-- Out of fuel: not an end state. -/
  | outOfFuel (s : State)
  /-- The tag is one the harness does not resolve. -/
  | refusedTag (tag : Mode)
  /-- The block halted (60_exceptions.md R294). -/
  | failed (cause : BitVec 3)
  /-- A step did not answer a next state, or a read returned nothing: neither happens on a running block. -/
  | stuck
deriving DecidableEq, Repr

/-- Issue one transaction now and let the block carry it out. -/
def transact (t : Transaction) (s : State) : Option State :=
  match step { s with pending := t :: s.pending } with
  | .next s' => some s'
  | .fault _ => none
  | .refused _ => none

/-- Issue a read access and take the value it returns. -/
def ask (i : Instr) (s : State) : Option (Wide × State) :=
  match transact (encode i) s with
  | none => none
  | some s' =>
    match s'.rdata with
    | none => none
    | some v => some (v, s')

/-- An access operation's fields, all zero but the ones given. -/
def fieldsOf (idx : BitVec 3) (addr : Addr) : AccessFields := { idx := idx, data := 0, addr := addr }

/-- Whether the harness resolves a tag: the six tags whose resolution the source's words settle. -/
def harnessResolves : Mode → Bool
  | .immediate | .absolute | .zeroPageAbsolute | .accumulator | .implied | .relative => true
  | .indexed | .zeroPageIndexed | .indirect | .preIndexedIndirect | .postIndexedIndirect => false

/-- The resolved operand of an entry, read through the ports; none where a read returns nothing or the tag is not resolved. -/
def resolve (e : HarnessEntry) (s : State) : Option (ResolvedOperand × State) :=
  match e.tag with
  | .immediate => some (⟨e.tag, e.arg.setWidth 8, 0⟩, s)
  | .absolute | .zeroPageAbsolute =>
    match ask (.rd (fieldsOf 0 e.arg)) s with
    | none => none
    | some (v, s') => some (⟨e.tag, v.setWidth 8, e.arg⟩, s')
  | .accumulator =>
    match ask (.getb (fieldsOf 2 0)) s with
    | none => none
    | some (v, s') => some (⟨e.tag, v.setWidth 8, 0⟩, s')
  | .implied => some (⟨e.tag, 0, 0⟩, s)
  | .relative => some (⟨e.tag, 0, e.arg⟩, s)
  | .indexed | .zeroPageIndexed | .indirect | .preIndexedIndirect | .postIndexedIndirect => none

/-- One entry: advance `pc` first (70_reset_and_hazards.md R344), resolve the operand, issue the command. -/
def harnessCommand (pc : Addr) (e : HarnessEntry) (s : State) : Option State :=
  match transact (encode (.setpc (fieldsOf 0 (pc + BitVec.ofNat 16 e.length)))) s with
  | none => none
  | some s1 =>
    match resolve e s1 with
    | none => none
    | some (op, s2) => transact (.command (commandWord e.unit op)) s2

/-- `RH(program, fuel)`. -/
def harnessRun (prog : HarnessProgram) : Nat → State → HarnessEnd
  | 0, s =>
    match ask (.getpc (fieldsOf 0 0)) s with
    | none => .stuck
    | some (pc, s0) =>
      match prog.lookup pc with
      | none => .finished s0
      | some _ => .outOfFuel s0
  | fuel + 1, s =>
    match ask (.getpc (fieldsOf 0 0)) s with
    | none => .stuck
    | some (pc, s0) =>
      match prog.lookup pc with
      | none => .finished s0
      | some e =>
        if harnessResolves e.tag then
          match harnessCommand pc e s0 with
          | none => .stuck
          | some s' => if s'.halted then .failed s'.haltCause else harnessRun prog fuel s'
        else .refusedTag e.tag

end Sys2Proof.Machine
end

