-- ==== Sys2Proof/Safety.lean ====
section
/-! DEFINITION. What counts as a safe run, and the predicates the claims are stated in. -/

namespace Sys2Proof.Machine

/-! ## The halted state is a failure (60_exceptions.md R294) -/

/-- A step, read as R294 asks: a block left halted is a fault with the recorded cause, not a state to go on from. -/
def checkedStep (s : State) : Host.Outcome State Fault Refusal :=
  match step s with
  | .next t => if t.halted then .fault (.preconditionViolation t.haltCause) else .next t
  | .fault r => .fault r
  | .refused r => .refused r

/-- A run of `k` checked steps: it answers a state only if the block was running after every step. -/
def checkedRun : Nat → State → Host.Outcome State Fault Refusal
  | 0, s => .next s
  | k + 1, s =>
    match checkedStep s with
    | .next t => checkedRun k t
    | .fault r => .fault r
    | .refused r => .refused r

/-! ## The invariant -/

/-- The halt latch and its cause: cause 0 while running, one of the causes 1 to 6 once halted (60_exceptions.md R293). -/
abbrev State.latchOk (s : State) : Prop :=
  (s.halted = false ∧ s.haltCause = 0#3) ∨ (s.halted = true ∧ 1 ≤ s.haltCause.toNat ∧ s.haltCause.toNat ≤ 6)

/-- What holds of every state the block can be in: bit 5 of P is 1 (10_state.md R27), memory is in its canonical form, and the latch
records a cause exactly when it is set. -/
abbrev State.Inv (s : State) : Prop := s.p.getLsbD 5 = true ∧ Memory.wf s.mem ∧ s.latchOk

/-! ## Frames (00_scope.md R11) -/

/-- Every byte of memory reads as before. -/
def KeepsMemory (s t : State) : Prop := ∀ addr : Addr, t.read addr = s.read addr

/-- Every byte of memory reads as before, but for the address given. -/
def KeepsMemoryBut (out : Addr) (s t : State) : Prop := ∀ addr : Addr, addr ≠ out → t.read addr = s.read addr

/-- Every bit of P is as before, but for the bits given. -/
def KeepsStatusBut (bits : List Nat) (s t : State) : Prop := ∀ k : Nat, k < 8 → k ∉ bits → t.p.getLsbD k = s.p.getLsbD k

/-- The whole of P is as before. -/
def KeepsStatus (s t : State) : Prop := t.p = s.p

/-- The index registers and the stack pointer are as before. -/
def KeepsXYSp (s t : State) : Prop := t.x = s.x ∧ t.y = s.y ∧ t.sp = s.sp

/-- All four 8-bit registers beside P are as before. -/
def KeepsRegs (s t : State) : Prop := t.a = s.a ∧ KeepsXYSp s t

/-- The halt latch, its cause, what is pending and what was returned are as before. -/
def KeepsLatchAndPorts (s t : State) : Prop :=
  t.halted = s.halted ∧ t.haltCause = s.haltCause ∧ t.pending = s.pending ∧ t.rdata = s.rdata

/-! ## What the driver owes the block (70_reset_and_hazards.md R341, R345) -/

/-- The value R341 asks for each tag: the immediate byte itself, the byte at the effective address for a memory tag, `A` for the
Accumulator tag. For Implied and Relative it asks for nothing. -/
def owedOperand (op : ResolvedOperand) (s : State) : Byte :=
  match op.mode with
  | .immediate | .implied | .relative => op.operandValue
  | .accumulator => s.a
  | .absolute | .zeroPageAbsolute | .indexed | .zeroPageIndexed | .indirect | .preIndexedIndirect | .postIndexedIndirect =>
    s.read op.effectiveAddress

/-- The driver has put into the operand value what R341 asks. -/
def DriverContract (op : ResolvedOperand) (s : State) : Prop := op.operandValue = owedOperand op s

/-- The block is not halted. -/
def State.Running (s : State) : Prop := s.halted = false

end Sys2Proof.Machine
end

