-- ==== Sys2Proof/Certificates/Slice0/Obligations.lean ====
section
/-! DEFINITION. The statements for the provers, drawn from the numbered rules of spec/. A docstring that names a decision D<n> of
92_eei_decisions.md or a log entry says which clause rests on a choice and not on the source's words. -/

open Sys2Proof Sys2Proof.Machine

namespace Sys2Proof.Claims

/-! ## Names used in the statements -/

/-- The 25 execution units in the order of the codes of 30_encoding.md R92. -/
def unitsInOrder : List (ResolvedOperand → Instr) :=
  [Instr.adc, Instr.and, Instr.asl, Instr.lsr, Instr.bcc, Instr.bcs, Instr.beq, Instr.bne, Instr.bmi, Instr.bpl, Instr.bvc, Instr.bvs,
    Instr.cmp, Instr.cpx, Instr.cpy, Instr.bit, Instr.clc, Instr.cld, Instr.cli, Instr.clv, Instr.jmp, Instr.jsr, Instr.lda, Instr.ldx,
    Instr.ldy]

/-- The eleven tags in the order of the codes of 30_encoding.md R93. -/
def tagsInOrder : List Mode :=
  [Mode.immediate, Mode.absolute, Mode.zeroPageAbsolute, Mode.implied, Mode.accumulator, Mode.indexed, Mode.zeroPageIndexed,
    Mode.indirect, Mode.preIndexedIndirect, Mode.postIndexedIndirect, Mode.relative]

/-- The ten access operations in the order of the codes of 30_encoding.md R99. -/
def accessesInOrder : List (AccessFields → Instr) :=
  [Instr.getb, Instr.setb, Instr.getf, Instr.setf, Instr.getpc, Instr.setpc, Instr.rd, Instr.wr, Instr.push, Instr.pop]

/-- The execution units, as opposed to the access operations (00_scope.md R2). -/
def isUnit : Instr → Bool
  | .getb _ | .setb _ | .getf _ | .setf _ | .getpc _ | .setpc _ | .rd _ | .wr _ | .push _ | .pop _ => false
  | _ => true

/-- The read operations, those with a result in the table of 30_encoding.md R99. -/
def returnsValue : Instr → Bool
  | .getb _ | .getf _ | .getpc _ | .rd _ | .pop _ => true
  | _ => false

/-- Who may write `pc` (10_state.md R40). -/
def writesPc : Instr → Bool
  | .bcc _ | .bcs _ | .beq _ | .bne _ | .bmi _ | .bpl _ | .bvc _ | .bvs _ | .jmp _ | .jsr _ | .setpc _ => true
  | _ => false

/-- Whether an instruction stores to an address (20_memory.md R61): ASL and LSR with a tag other than Accumulator to the effective
address, JSR to two bytes of the stack page, WR to its address, PUSH to the byte at the stack pointer. -/
def storesTo (s : State) (addr : Addr) : Instr → Bool
  | .asl op | .lsr op => decide (op.mode ≠ .accumulator ∧ addr = op.effectiveAddress)
  | .jsr _ => decide (addr = stackAddr s.sp ∨ addr = stackAddr (s.sp - 1))
  | .wr f => decide (addr = f.addr)
  | .push _ => decide (addr = stackAddr s.sp)
  | _ => false

/-- Who may write `A` (10_state.md R23). -/
def writesA : Instr → Bool
  | .adc _ | .and _ | .lda _ => true
  | .asl op | .lsr op => decide (op.mode = .accumulator)
  | .setb f => f.idx == 2#3
  | _ => false

/-- Who may write `X` (10_state.md R24). -/
def writesX : Instr → Bool
  | .ldx _ => true
  | .setb f => f.idx == 3#3
  | _ => false

/-- Who may write `Y` (10_state.md R25). -/
def writesY : Instr → Bool
  | .ldy _ => true
  | .setb f => f.idx == 4#3
  | _ => false

/-- Who may write `SP` (10_state.md R38). -/
def writesSp : Instr → Bool
  | .jsr _ | .push _ | .pop _ => true
  | .setb f => f.idx == 1#3
  | _ => false

/-- Who may write Carry (10_state.md R30), SETF and SETB apart. -/
def writesCarry : Instr → Bool
  | .adc _ | .asl _ | .lsr _ | .cmp _ | .cpx _ | .cpy _ | .clc _ => true
  | _ => false

/-- Who may write Zero and Sign (10_state.md R31, R36), SETF and SETB apart. -/
def writesZeroAndSign : Instr → Bool
  | .adc _ | .and _ | .asl _ | .lsr _ | .cmp _ | .cpx _ | .cpy _ | .bit _ | .lda _ | .ldx _ | .ldy _ => true
  | _ => false

/-- Who may write Overflow (10_state.md R35), SETF and SETB apart. -/
def writesOverflow : Instr → Bool
  | .adc _ | .bit _ | .clv _ => true
  | _ => false

/-- SETF of the flag at this bit, and SETB of Status, may write the bit (40_access_port.md R131, R133). -/
def accessWritesBit (k : Nat) : Instr → Bool
  | .setf f => decide (f.idx.toNat = k)
  | .setb f => f.idx == 0#3
  | _ => false

/-- The operand of a unit with other fields. -/
def withMode (op : ResolvedOperand) (m : Mode) : ResolvedOperand := { op with mode := m }

/-- Push the bytes of a list one after the other through PUSH. -/
def pushAll : List Byte → State → Host.Outcome State Fault Refusal
  | [], s => .next s
  | v :: rest, s =>
    match exec (.push { idx := 0, data := v, addr := 0 }) s with
    | .next t => pushAll rest t
    | .fault r => .fault r
    | .refused r => .refused r

/-- A byte is packed BCD: both nibbles are decimal digits (41_arith_logic.md R155). -/
def isBcd (v : Byte) : Prop := v.toNat / 16 ≤ 9 ∧ v.toNat % 16 ≤ 9

/-- The decimal number a packed BCD byte stands for. -/
def bcdValue (v : Byte) : Nat := 10 * (v.toNat / 16) + v.toNat % 16

/-- An 8-bit value read as a two's-complement number (41_arith_logic.md R154). -/
def signedValue (v : Byte) : Int := if v.toNat < 128 then (v.toNat : Int) else (v.toNat : Int) - 256

/-- Nothing but `P` differs. -/
def KeepsAllButStatus (s t : State) : Prop :=
  t.pc = s.pc ∧ KeepsRegs s t ∧ KeepsMemory s t ∧ KeepsLatchAndPorts s t

end Sys2Proof.Claims

open Sys2Proof.Claims

/-! ## Encoding -/

/-- Decoding an instruction's word on its port gives the instruction back, for all 35 instructions and every value of every field. The
codes and bit positions are the spec's decisions D2 to D5 (log 7). -/
def Obligations.DecodeGivesBackEveryEncodedInstruction : Prop :=
  ∀ i : Instr, decodeTransaction (encode i) = some (.ok i)

/-- A word that decodes is the word of the instruction it decodes to: the decoder drops no bit, and two words never mean the same
instruction (30_encoding.md R105; D2 to D5, log 7). -/
def Obligations.EncodeGivesBackEveryDecodedWord : Prop :=
  ∀ (w : Transaction) (i : Instr), decodeTransaction w = some (.ok i) → encode i = w

/-- A command word decodes by its fields: an unassigned unit is cause 4, else an unassigned mode is cause 5, else the unit and the tag
are those of the tables and the operand fields are bits 23:16 and 15:0 (30_encoding.md R91, R92, R93, R105; D2, D3, D4, D6, log 6, 7). -/
def Obligations.CommandWordDecodesByItsFields : Prop :=
  ∀ cw : CommandWord,
    (24 < cw.toNat / 2 ^ 28 → decodeCommand cw = .error .invalidUnitSelect) ∧
    (cw.toNat / 2 ^ 28 ≤ 24 → 10 < cw.toNat / 2 ^ 24 % 16 → decodeCommand cw = .error .invalidModeTag) ∧
    (∀ u m, unitsInOrder[cw.toNat / 2 ^ 28]? = some u → tagsInOrder[cw.toNat / 2 ^ 24 % 16]? = some m →
      decodeCommand cw = .ok (u
        { mode := m
          operandValue := BitVec.ofNat 8 (cw.toNat / 2 ^ 16 % 256)
          effectiveAddress := BitVec.ofNat 16 (cw.toNat % 65536) }))

/-- An access word decodes by its fields: an unassigned operation is cause 6, else the operation is that of the table and its fields
are bits 26:24, 23:16 and 15:0 (30_encoding.md R98, R99; D5, D6, log 6, 7). -/
def Obligations.AccessWordDecodesByItsFields : Prop :=
  ∀ aw : AccessWord,
    (9 < aw.toNat / 2 ^ 27 → decodeAccess aw = .error .invalidAccessOp) ∧
    (∀ o, accessesInOrder[aw.toNat / 2 ^ 27]? = some o →
      decodeAccess aw = .ok (o
        { idx := BitVec.ofNat 3 (aw.toNat / 2 ^ 24 % 8)
          data := BitVec.ofNat 8 (aw.toNat / 2 ^ 16 % 256)
          addr := BitVec.ofNat 16 (aw.toNat % 65536) }))

/-- A few words written out in the spec decode to what they stand for, one or more of each family (R150, R151, R171, R172, R191, R211,
R214, R231, R250, R251, R271, R131, R133, R137 examples). -/
def Obligations.WordsOfTheSpecDecodeAsWritten : Prop :=
  decodeCommand 0x000500000#33 = .ok (.adc ⟨.immediate, 0x50#8, 0x0000#16⟩) ∧
  decodeCommand 0x010800000#33 = .ok (.and ⟨.immediate, 0x80#8, 0x0000#16⟩) ∧
  decodeCommand 0x022810010#33 = .ok (.asl ⟨.zeroPageAbsolute, 0x81#8, 0x0010#16⟩) ∧
  decodeCommand 0x034010000#33 = .ok (.lsr ⟨.accumulator, 0x01#8, 0x0000#16⟩) ∧
  decodeCommand 0x04A001234#33 = .ok (.bcc ⟨.relative, 0x00#8, 0x1234#16⟩) ∧
  decodeCommand 0x0C0100000#33 = .ok (.cmp ⟨.immediate, 0x10#8, 0x0000#16⟩) ∧
  decodeCommand 0x0F2C00011#33 = .ok (.bit ⟨.zeroPageAbsolute, 0xC0#8, 0x0011#16⟩) ∧
  decodeCommand 0x103000000#33 = .ok (.clc ⟨.implied, 0x00#8, 0x0000#16⟩) ∧
  decodeCommand 0x147000300#33 = .ok (.jmp ⟨.indirect, 0x00#8, 0x0300#16⟩) ∧
  decodeCommand 0x151000410#33 = .ok (.jsr ⟨.absolute, 0x00#8, 0x0410#16⟩) ∧
  decodeCommand 0x160800000#33 = .ok (.lda ⟨.immediate, 0x80#8, 0x0000#16⟩) ∧
  decodeAccess 0x0AA50000#31 = .ok (.setb ⟨2#3, 0xA5#8, 0x0000#16⟩) ∧
  decodeAccess 0x1B010000#31 = .ok (.setf ⟨3#3, 0x01#8, 0x0000#16⟩) ∧
  decodeAccess 0x38A5FFFF#31 = .ok (.wr ⟨0#3, 0xA5#8, 0xFFFF#16⟩)

/-! ## Steps -/

/-- A step runs the decoded instruction: on a running block whose next transaction is a word that decodes to i, step is exec of i in the
same state with that transaction taken off the pending ones and nothing returned yet (log 1, log 2: the pending list and `rdata` are the
model's own). -/
def Obligations.StepRunsTheDecodedInstruction : Prop :=
  ∀ (s : State) (w : Transaction) (rest : List Transaction) (i : Instr),
    s.pending = w :: rest → s.halted = false → decodeTransaction w = some (.ok i) →
    step s = exec i { s with pending := rest, rdata := none }

/-- An illegal word halts a running block with its cause and writes nothing else: unit first (cause 4), then mode (cause 5); an access
operation above 9 is cause 6 (30_encoding.md R102; 60_exceptions.md R291, R297; D6, D7, log 4, 6). That the word is
no longer pending and that nothing is returned are log 1 and log 2. -/
def Obligations.IllegalWordHaltsAndWritesNothingElse : Prop :=
  ∀ (s : State) (rest : List Transaction), s.halted = false →
    (∀ cw : CommandWord, s.pending = .command cw :: rest → 24 < cw.toNat / 2 ^ 28 →
      step s = .next { s with pending := rest, rdata := none, halted := true, haltCause := 4#3 }) ∧
    (∀ cw : CommandWord, s.pending = .command cw :: rest → cw.toNat / 2 ^ 28 ≤ 24 → 10 < cw.toNat / 2 ^ 24 % 16 →
      step s = .next { s with pending := rest, rdata := none, halted := true, haltCause := 5#3 }) ∧
    (∀ aw : AccessWord, s.pending = .access aw :: rest → 9 < aw.toNat / 2 ^ 27 →
      step s = .next { s with pending := rest, rdata := none, halted := true, haltCause := 6#3 })

/-- A halted block ignores every word for ever: whatever is issued and however much of it, as long as none is a reset, its registers,
`pc`, memory, latch and cause stay as they are, and no transaction returns anything (60_exceptions.md R294, R296; D7, log 4, 5).
That the words are taken off one by one, that `rdata` is cleared by an ignored word and kept by a step with nothing issued are the
model's choices, log 1, log 2 and log 3. -/
def Obligations.HaltedBlockNeverLeavesTheHaltWithoutReset : Prop :=
  ∀ (k : Nat) (s : State), s.halted = true → Transaction.reset ∉ s.pending →
    core.run k s =
      .next { s with pending := s.pending.drop k, rdata := if k = 0 ∨ s.pending = [] then s.rdata else none }

/-- The reset transaction gives the construction state from any state, halted or not; what the environment issues after it stays
(70_reset_and_hazards.md R330; D17, log 19). -/
def Obligations.ResetGivesTheConstructionStateFromAnyState : Prop :=
  ∀ (s : State) (rest : List Transaction), s.pending = .reset :: rest →
    ∃ t, step s = .next t ∧ t = { State.reset with pending := rest } ∧ t.pc = 0#16 ∧ t.p = 0x20#8 ∧ t.sp = 0#8 ∧ t.a = 0#8 ∧
      t.x = 0#8 ∧ t.y = 0#8 ∧ (∀ addr : Addr, t.read addr = 0#8) ∧ t.halted = false ∧ t.haltCause = 0#3 ∧ t.rdata = none

/-- The state after reset (10_state.md R45). -/
def Obligations.StateAfterResetIsAsTheSpecSays : Prop :=
  State.reset.pc = 0#16 ∧ State.reset.a = 0#8 ∧ State.reset.x = 0#8 ∧ State.reset.y = 0#8 ∧ State.reset.sp = 0#8 ∧
    State.reset.p = 0x20#8 ∧ (∀ k : Nat, State.reset.p.getLsbD k = decide (k = 5)) ∧
    (∀ addr : Addr, State.reset.read addr = 0#8) ∧ State.reset.halted = false ∧ State.reset.haltCause = 0#3

/-- Between transactions the block holds its state (60_exceptions.md R310). That a step with nothing issued is such a moment is the
model's reading (log 3). -/
def Obligations.IdleBlockHoldsItsState : Prop :=
  ∀ s : State, s.pending = [] → step s = .next s

/-- Every step answers a next state: no transaction ends in a fault or a refusal (00_scope.md R9: a transaction completes or is a
precondition violation, which is a next state, log 4). -/
def Obligations.EveryStepAnswersANextState : Prop :=
  ∀ s : State, ∃ t, step s = .next t

/-- A step takes exactly one transaction, the oldest (00_scope.md R7; 70_reset_and_hazards.md R340; log 1). -/
def Obligations.StepTakesExactlyOneTransaction : Prop :=
  ∀ (s : State) (w : Transaction) (rest : List Transaction), s.pending = w :: rest →
    ∃ t, step s = .next t ∧ t.pending = rest

/-- The state after a transaction is a function of the state before it and of the transaction word alone: neither what is issued later
nor what was returned earlier plays a part (00_scope.md R10). That what was returned earlier plays
no part in what is returned, and where what is issued later is kept, rest on the model's own two fields, log 1 and log 2. -/
def Obligations.EffectDependsOnStateAndWordAlone : Prop :=
  ∀ (s : State) (w : Transaction) (r1 r2 : List Transaction) (d1 d2 : Option Wide),
    ∃ t : State, step { s with pending := w :: r1, rdata := d1 } = .next { t with pending := r1 } ∧
      step { s with pending := w :: r2, rdata := d2 } = .next { t with pending := r2 }

/-- Only a read operation on a running block returns a value; a command, a write and a reset return nothing (00_scope.md R8;
30_encoding.md R99; log 2). -/
def Obligations.OnlyReadOperationsReturnAValue : Prop :=
  ∀ (s t : State) (w : Transaction) (rest : List Transaction), s.pending = w :: rest → step s = .next t → t.rdata ≠ none →
    s.halted = false ∧ ∃ aw i, w = .access aw ∧ decodeAccess aw = .ok i ∧ returnsValue i = true

/-- The step that halts a running block changes nothing but the latch and its cause, and the cause is one of 1 to 6
(60_exceptions.md R291, R293, R295; D7, log 4). That the word is no longer pending and that nothing is returned are log 1 and
log 2. -/
def Obligations.HaltingStepWritesOnlyTheLatch : Prop :=
  ∀ (s t : State) (w : Transaction) (rest : List Transaction), s.pending = w :: rest → s.halted = false → step s = .next t →
    t.halted = true →
    t = { s with pending := rest, rdata := none, halted := true, haltCause := t.haltCause } ∧
      1 ≤ t.haltCause.toNat ∧ t.haltCause.toNat ≤ 6

/-- A checked run answers a state exactly when the block was running all along, and then it is the plain run's state: a halt on the way
is a failure of the run (60_exceptions.md R294; D7, log 4). -/
def Obligations.CheckedRunSucceedsExactlyWhenNothingHalts : Prop :=
  ∀ (k : Nat) (s : State), s.halted = false →
    ((∃ t, checkedRun k s = .next t) ↔ ∀ j, j ≤ k → ∀ t, core.run j s = .next t → t.halted = false) ∧
    (∀ t, checkedRun k s = .next t → core.run k s = .next t)

/-! ## Invariants -/

/-- Every step keeps the invariant: bit 5 of P is 1 (10_state.md R27), memory is canonical (log 10, the model's own form), and the latch
holds a cause 1 to 6 exactly when it is set (60_exceptions.md R293; D7). -/
def Obligations.EveryStepKeepsTheInvariant : Prop :=
  ∀ s t : State, s.Inv → step s = .next t → t.Inv

/-- The invariant holds after reset, whatever is pending. -/
def Obligations.ResetStateMeetsTheInvariant : Prop :=
  ∀ script : List Transaction, State.Inv { State.reset with pending := script }

/-- The reserved bit is 1 in every state reached from reset by any sequence of transactions, and addressing it as a flag fails: GETF and
SETF with index 5, whatever the data, set the latch with cause 1 and write nothing else (10_state.md R27; 60_exceptions.md R291, R292;
that SETB of Status keeps the bit is D8, the form and the code of a violation are D6 and D7, log 4, 6, 11). -/
def Obligations.ReservedBitIsPermanentlyOne : Prop :=
  (∀ (script : List Transaction) (k : Nat) (t : State),
    core.run k { State.reset with pending := script } = .next t → t.p.getLsbD 5 = true) ∧
  (∀ (s : State) (f : AccessFields), f.idx.toNat = 5 →
    exec (.getf f) s = .next { s with halted := true, haltCause := 1#3 } ∧
      exec (.setf f) s = .next { s with halted := true, haltCause := 1#3 })

/-- Two memories in canonical form that read alike everywhere are the same list (20_memory.md R60; log 10, the model's own form). -/
def Obligations.CanonicalMemoryIsDeterminedByItsReads : Prop :=
  ∀ m1 m2 : Memory, Memory.wf m1 → Memory.wf m2 → (∀ addr : Addr, Memory.read m1 addr = Memory.read m2 addr) → m1 = m2

/-! ## Whole-machine rules -/

/-- An instruction halts a running block exactly when a field of it holds an unassigned code; so no execution unit ever does
(60_exceptions.md R290, R293; D6, log 24). -/
def Obligations.InstructionHaltsExactlyWhenIllFormed : Prop :=
  ∀ (i : Instr) (s : State), s.halted = false →
    (∃ t, exec i s = .next t ∧ (t.halted = true ↔ i.wellFormed = false)) ∧ (isUnit i = true → i.wellFormed = true)

/-- Every pair of an assigned unit and an assigned tag executes: the step is that unit's own effect and the block is not halted
(30_encoding.md R97, with the codes of R92 and R93: D3, D4, log 7). The state the unit runs in, with the word no longer pending
and nothing returned, is log 1 and log 2. -/
def Obligations.EveryUnitAndTagPairExecutes : Prop :=
  ∀ (s : State) (cw : CommandWord) (rest : List Transaction), s.pending = .command cw :: rest → s.halted = false →
    cw.toNat / 2 ^ 28 ≤ 24 → cw.toNat / 2 ^ 24 % 16 ≤ 10 →
    ∃ u op t, u ∈ unitsInOrder ∧ decodeCommand cw = .ok (u op) ∧ step s = .next t ∧
      exec (u op) { s with pending := rest, rdata := none } = .next t ∧ t.halted = false

/-- Only the branches, JMP, JSR and SETPC write `pc`; no other instruction advances it (10_state.md R40; 00_scope.md R11; D13, log 16). -/
def Obligations.OnlyControlTransfersAndSetpcWritePc : Prop :=
  ∀ (i : Instr) (s t : State), exec i s = .next t → writesPc i = false → t.pc = s.pc

/-- Every instruction leaves every byte of memory as it was but those it stores to: the effective address for ASL and LSR with a tag
other than Accumulator, the two stack bytes for JSR, the address for WR, the stack byte for PUSH, and none for any other
(20_memory.md R61, R64; 00_scope.md R11; D9, D13, log 12, 16). -/
def Obligations.OnlyStoringInstructionsWriteMemory : Prop :=
  ∀ (i : Instr) (s t : State) (addr : Addr), exec i s = .next t → storesTo s addr i = false → t.read addr = s.read addr

/-- Each of A, X, Y and SP is written only by the instructions its rule lists (10_state.md R23, R24, R25, R38). -/
def Obligations.RegistersAreWrittenOnlyByTheirListedWriters : Prop :=
  ∀ (i : Instr) (s t : State), exec i s = .next t →
    (writesA i = false → t.a = s.a) ∧ (writesX i = false → t.x = s.x) ∧ (writesY i = false → t.y = s.y) ∧
      (writesSp i = false → t.sp = s.sp)

/-- Each flag is written only by the units its rule lists and by SETF of it and SETB of Status (10_state.md R30 to R36). -/
def Obligations.FlagsAreWrittenOnlyByTheirListedWriters : Prop :=
  ∀ (i : Instr) (s t : State), exec i s = .next t →
    (writesCarry i = false → accessWritesBit 0 i = false → t.p.getLsbD 0 = s.p.getLsbD 0) ∧
    (writesZeroAndSign i = false → accessWritesBit 1 i = false → t.p.getLsbD 1 = s.p.getLsbD 1) ∧
    ((∀ op, i ≠ .cli op) → accessWritesBit 2 i = false → t.p.getLsbD 2 = s.p.getLsbD 2) ∧
    ((∀ op, i ≠ .cld op) → accessWritesBit 3 i = false → t.p.getLsbD 3 = s.p.getLsbD 3) ∧
    (accessWritesBit 4 i = false → t.p.getLsbD 4 = s.p.getLsbD 4) ∧
    (writesOverflow i = false → accessWritesBit 6 i = false → t.p.getLsbD 6 = s.p.getLsbD 6) ∧
    (writesZeroAndSign i = false → accessWritesBit 7 i = false → t.p.getLsbD 7 = s.p.getLsbD 7)

/-- No execution unit sets InterruptDisable, Decimal or BreakOnInterrupt to 1 (00_scope.md R5, its last sentence). -/
def Obligations.NoUnitSetsDecimalInterruptOrBreak : Prop :=
  ∀ (i : Instr) (s t : State), isUnit i = true → exec i s = .next t →
    (t.p.getLsbD 2 = true → s.p.getLsbD 2 = true) ∧ (t.p.getLsbD 3 = true → s.p.getLsbD 3 = true) ∧
      (t.p.getLsbD 4 = true → s.p.getLsbD 4 = true)

/-- BreakOnInterrupt and InterruptDisable are storage bits: in two states that differ in such a bit alone every unit (CLI apart for
InterruptDisable) does the same and leaves the same difference (10_state.md R32, R34; D20, log 20). -/
def Obligations.InterruptAndBreakFlagsInfluenceNoUnit : Prop :=
  ∀ (i : Instr) (s t : State), isUnit i = true → exec i s = .next t →
    exec i { s with p := s.p ^^^ 0x10#8 } = .next { t with p := t.p ^^^ 0x10#8 } ∧
    ((∀ op, i ≠ .cli op) → exec i { s with p := s.p ^^^ 0x04#8 } = .next { t with p := t.p ^^^ 0x04#8 })

/-- Don't-care fields of a command: two legal words of one unit give the same next state when they agree in the fields R96 says the unit
reads (30_encoding.md R96; codes D3, log 7): units 0, 1, 12 to 15 and 22 to 24 in `operandValue`, units 16 to 19 in nothing, units 20 and
21 and the branches 4 to 11 in `effectiveAddress`, the shifts 2 and 3 in `operandValue` when both tags are Accumulator. -/
def Obligations.CommandFieldsAUnitIgnoresHaveNoEffect : Prop :=
  ∀ (s : State) (c1 c2 : CommandWord) (rest : List Transaction),
    c1.toNat / 2 ^ 28 = c2.toNat / 2 ^ 28 → c1.toNat / 2 ^ 24 % 16 ≤ 10 → c2.toNat / 2 ^ 24 % 16 ≤ 10 →
    (c1.toNat / 2 ^ 28 ∈ [0, 1, 12, 13, 14, 15, 22, 23, 24] ∧ c1.toNat / 2 ^ 16 % 256 = c2.toNat / 2 ^ 16 % 256 ∨
      c1.toNat / 2 ^ 28 ∈ [16, 17, 18, 19] ∨
      c1.toNat / 2 ^ 28 ∈ [4, 5, 6, 7, 8, 9, 10, 11, 20, 21] ∧ c1.toNat % 65536 = c2.toNat % 65536 ∨
      c1.toNat / 2 ^ 28 ∈ [2, 3] ∧ c1.toNat / 2 ^ 24 % 16 = 4 ∧ c2.toNat / 2 ^ 24 % 16 = 4 ∧
        c1.toNat / 2 ^ 16 % 256 = c2.toNat / 2 ^ 16 % 256) →
    step { s with pending := .command c1 :: rest } = step { s with pending := .command c2 :: rest }

/-- Don't-care fields of an access: an operation reads only the fields the table of R99 lists for it (30_encoding.md R98, R99; codes D5,
log 7). -/
def Obligations.AccessFieldsAnOperationIgnoresHaveNoEffect : Prop :=
  ∀ (s : State) (w1 w2 : AccessWord) (rest : List Transaction),
    w1.toNat / 2 ^ 27 = w2.toNat / 2 ^ 27 →
    (w1.toNat / 2 ^ 27 ∈ [0, 2] ∧ w1.toNat / 2 ^ 24 % 8 = w2.toNat / 2 ^ 24 % 8 ∨
      w1.toNat / 2 ^ 27 ∈ [1, 3] ∧ w1.toNat / 2 ^ 24 % 8 = w2.toNat / 2 ^ 24 % 8 ∧
        w1.toNat / 2 ^ 16 % 256 = w2.toNat / 2 ^ 16 % 256 ∨
      w1.toNat / 2 ^ 27 ∈ [4, 9] ∨
      w1.toNat / 2 ^ 27 ∈ [5, 6] ∧ w1.toNat % 65536 = w2.toNat % 65536 ∨
      w1.toNat / 2 ^ 27 = 7 ∧ w1.toNat / 2 ^ 16 % 256 = w2.toNat / 2 ^ 16 % 256 ∧ w1.toNat % 65536 = w2.toNat % 65536 ∨
      w1.toNat / 2 ^ 27 = 8 ∧ w1.toNat / 2 ^ 16 % 256 = w2.toNat / 2 ^ 16 % 256) →
    step { s with pending := .access w1 :: rest } = step { s with pending := .access w2 :: rest }

/-! ## ADC and AND -/

/-- ADC in binary mode completes in every state: A is the sum modulo 256, C the carry out of 8 bits, Z and N come from the stored byte,
and V is signed overflow: the two's-complement sum lies outside -128 to 127 (41_arith_logic.md R150, R153, R154). Z on 8 bits is the
spec's decision D11 and N from bit 7 its decision D21 (log 14, 15). -/
def Obligations.AdcBinaryIsAdditionModulo256 : Prop :=
  ∀ (op : ResolvedOperand) (s : State), s.p.getLsbD 3 = false →
    ∃ t, exec (.adc op) s = .next t ∧
      t.a.toNat = (s.a.toNat + op.operandValue.toNat + (s.p.getLsbD 0).toNat) % 256 ∧
      (t.p.getLsbD 0 = true ↔ 256 ≤ s.a.toNat + op.operandValue.toNat + (s.p.getLsbD 0).toNat) ∧
      (t.p.getLsbD 1 = true ↔ t.a = 0#8) ∧
      (t.p.getLsbD 7 = true ↔ 128 ≤ t.a.toNat) ∧
      (t.p.getLsbD 6 = true ↔
        signedValue s.a + signedValue op.operandValue + ((s.p.getLsbD 0).toNat : Int) < -128 ∨
          127 < signedValue s.a + signedValue op.operandValue + ((s.p.getLsbD 0).toNat : Int)) ∧
      KeepsStatusBut [0, 1, 6, 7] s t ∧ t.pc = s.pc ∧ KeepsXYSp s t ∧ KeepsMemory s t ∧ KeepsLatchAndPorts s t

/-- ADC in decimal mode completes in every state and for every operand, valid BCD or not, by the steps of R150: add 6 when the low digits
exceed 9, take N and V there, add 96 when that exceeds 0x99, take C there, and take Z from the uncorrected sum (41_arith_logic.md R150).
The stages of Z, N and V are the spec's decisions D11 and D12 (log 14, 15). -/
def Obligations.AdcDecimalFollowsTheCorrectionSteps : Prop :=
  ∀ (op : ResolvedOperand) (s : State), s.p.getLsbD 3 = true →
    ∀ sum low high : Nat,
      sum = s.a.toNat + op.operandValue.toNat + (s.p.getLsbD 0).toNat →
      low = (if 9 < s.a.toNat % 16 + op.operandValue.toNat % 16 + (s.p.getLsbD 0).toNat then sum + 6 else sum) →
      high = (if 0x99 < low then low + 96 else low) →
      ∃ t, exec (.adc op) s = .next t ∧ t.a.toNat = high % 256 ∧
        (t.p.getLsbD 0 = true ↔ 0x99 < high) ∧
        (t.p.getLsbD 1 = true ↔ sum % 256 = 0) ∧
        (t.p.getLsbD 7 = true ↔ 128 ≤ low % 256) ∧
        (t.p.getLsbD 6 = true ↔
          (128 ≤ s.a.toNat ↔ 128 ≤ op.operandValue.toNat) ∧ ¬(128 ≤ s.a.toNat ↔ 128 ≤ low % 256)) ∧
        KeepsStatusBut [0, 1, 6, 7] s t ∧ t.pc = s.pc ∧ KeepsXYSp s t ∧ KeepsMemory s t ∧ KeepsLatchAndPorts s t

/-- On two valid BCD bytes decimal ADC is decimal addition: A is the BCD byte of the decimal sum modulo 100, and C is 1 exactly when the
decimal sum is 100 or more (41_arith_logic.md R155, derived there from R150). -/
def Obligations.AdcDecimalAddsValidBcd : Prop :=
  ∀ (op : ResolvedOperand) (s : State), s.p.getLsbD 3 = true → isBcd s.a → isBcd op.operandValue →
    ∃ t, exec (.adc op) s = .next t ∧ isBcd t.a ∧
      bcdValue t.a = (bcdValue s.a + bcdValue op.operandValue + (s.p.getLsbD 0).toNat) % 100 ∧
      (t.p.getLsbD 0 = true ↔ 100 ≤ bcdValue s.a + bcdValue op.operandValue + (s.p.getLsbD 0).toNat)

/-- AND completes in every state: A is the bitwise AND, N and Z come from it, C and V are kept (41_arith_logic.md R151). -/
def Obligations.AndMasksTheAccumulator : Prop :=
  ∀ (op : ResolvedOperand) (s : State),
    ∃ t, exec (.and op) s = .next t ∧
      (∀ k : Nat, t.a.getLsbD k = (s.a.getLsbD k && op.operandValue.getLsbD k)) ∧
      (t.p.getLsbD 7 = true ↔ 128 ≤ t.a.toNat) ∧ (t.p.getLsbD 1 = true ↔ t.a = 0#8) ∧
      KeepsStatusBut [1, 7] s t ∧ t.pc = s.pc ∧ KeepsXYSp s t ∧ KeepsMemory s t ∧ KeepsLatchAndPorts s t

/-! ## The shifts -/

/-- ASL completes in every state: the result is the doubled operand modulo 256, C its old bit 7, N and Z come from the result, and the
result goes to A for the Accumulator tag, where memory is kept, and to the effective address for every other tag, where A and every
other byte are kept (42_shift.md R170, R171; D9, log 12). -/
def Obligations.AslShiftsLeftAndWritesBack : Prop :=
  ∀ (op : ResolvedOperand) (s : State),
    ∃ t r, exec (.asl op) s = .next t ∧ r = BitVec.ofNat 8 (2 * op.operandValue.toNat) ∧
      (op.mode = .accumulator → t.a = r ∧ KeepsMemory s t) ∧
      (op.mode ≠ .accumulator →
        t.read op.effectiveAddress = r ∧ t.a = s.a ∧ KeepsMemoryBut op.effectiveAddress s t) ∧
      (t.p.getLsbD 0 = true ↔ 128 ≤ op.operandValue.toNat) ∧
      (t.p.getLsbD 7 = true ↔ 128 ≤ r.toNat) ∧ (t.p.getLsbD 1 = true ↔ r = 0#8) ∧
      KeepsStatusBut [0, 1, 7] s t ∧ t.pc = s.pc ∧ KeepsXYSp s t ∧ KeepsLatchAndPorts s t

/-- LSR completes in every state: the result is the halved operand, C its old bit 0, N is always 0, Z comes from the result, and the
write-back is that of ASL (42_shift.md R170, R172; D9, log 12). -/
def Obligations.LsrShiftsRightAndWritesBack : Prop :=
  ∀ (op : ResolvedOperand) (s : State),
    ∃ t r, exec (.lsr op) s = .next t ∧ r = BitVec.ofNat 8 (op.operandValue.toNat / 2) ∧
      (op.mode = .accumulator → t.a = r ∧ KeepsMemory s t) ∧
      (op.mode ≠ .accumulator →
        t.read op.effectiveAddress = r ∧ t.a = s.a ∧ KeepsMemoryBut op.effectiveAddress s t) ∧
      (t.p.getLsbD 0 = true ↔ op.operandValue.toNat % 2 = 1) ∧
      t.p.getLsbD 7 = false ∧ (t.p.getLsbD 1 = true ↔ r = 0#8) ∧
      KeepsStatusBut [0, 1, 7] s t ∧ t.pc = s.pc ∧ KeepsXYSp s t ∧ KeepsLatchAndPorts s t

/-! ## The branches -/

/-- Each of the eight branches completes in every state: `pc` becomes the effective address exactly when the tested bit of P has the
stated value, and nothing else changes (43_branch.md R190 to R199; the target field is D10, log 13). -/
def Obligations.BranchTestsItsFlagAndWritesOnlyPc : Prop :=
  ∀ (op : ResolvedOperand) (s : State) (u : ResolvedOperand → Instr) (bit : Nat) (taken : Bool),
    (u, bit, taken) ∈ [(Instr.bcc, 0, false), (Instr.bcs, 0, true), (Instr.beq, 1, true), (Instr.bne, 1, false),
      (Instr.bmi, 7, true), (Instr.bpl, 7, false), (Instr.bvc, 6, false), (Instr.bvs, 6, true)] →
    exec (u op) s = .next { s with pc := if s.p.getLsbD bit = taken then op.effectiveAddress else s.pc }

/-! ## The compares and BIT -/

/-- CMP, CPX and CPY complete in every state: C is 1 when the register is at least the operand (unsigned), Z when they are equal, N is
bit 7 of the wrapped difference; V, D, every register, pc and memory are kept (44_compare_bit.md R210 to R213; D9, log 12). -/
def Obligations.CompareSetsCarryZeroSignOnly : Prop :=
  ∀ (op : ResolvedOperand) (s : State) (u : ResolvedOperand → Instr) (r : Byte),
    (u, r) ∈ [(Instr.cmp, s.a), (Instr.cpx, s.x), (Instr.cpy, s.y)] →
    ∃ t, exec (u op) s = .next t ∧
      (t.p.getLsbD 0 = true ↔ op.operandValue.toNat ≤ r.toNat) ∧
      (t.p.getLsbD 1 = true ↔ r = op.operandValue) ∧
      (t.p.getLsbD 7 = true ↔ 128 ≤ (r.toNat + 256 - op.operandValue.toNat) % 256) ∧
      KeepsStatusBut [0, 1, 7] s t ∧ KeepsAllButStatus s t

/-- BIT completes in every state: V and N are bits 6 and 7 of the tested value, Z is 1 exactly when it has no bit in common with A; C,
every register, pc and memory are kept (44_compare_bit.md R214; D9, log 12). -/
def Obligations.BitTestsTheOperandAgainstA : Prop :=
  ∀ (op : ResolvedOperand) (s : State),
    ∃ t, exec (.bit op) s = .next t ∧
      t.p.getLsbD 6 = op.operandValue.getLsbD 6 ∧ t.p.getLsbD 7 = op.operandValue.getLsbD 7 ∧
      (t.p.getLsbD 1 = true ↔ ∀ k : Nat, ¬(op.operandValue.getLsbD k = true ∧ s.a.getLsbD k = true)) ∧
      KeepsStatusBut [1, 6, 7] s t ∧ KeepsAllButStatus s t

/-! ## The flag clears -/

/-- CLC, CLD, CLI and CLV complete in every state: each clears exactly its flag and no other state changes, and clearing a flag that is
already 0 changes nothing at all (45_flag_clear.md R230 to R234). -/
def Obligations.ClearUnitsClearExactlyOneFlag : Prop :=
  ∀ (op : ResolvedOperand) (s : State) (u : ResolvedOperand → Instr) (bit : Nat),
    (u, bit) ∈ [(Instr.clc, 0), (Instr.cld, 3), (Instr.cli, 2), (Instr.clv, 6)] →
    ∃ t, exec (u op) s = .next t ∧ t.p.getLsbD bit = false ∧ KeepsStatusBut [bit] s t ∧ t = { s with p := t.p } ∧
      (s.p.getLsbD bit = false → t = s)

/-! ## JMP and JSR -/

/-- JMP completes in every state, whatever the tag: `pc` becomes the effective address and nothing else changes (46_jump.md R250; the
target field is D10, log 13). -/
def Obligations.JmpWritesOnlyPc : Prop :=
  ∀ (op : ResolvedOperand) (s : State), exec (.jmp op) s = .next { s with pc := op.effectiveAddress }

/-- JSR completes in every state: it pushes `pc - 1` modulo 65536, the high byte at `0x0100 + SP` and the low byte at
`0x0100 + (SP - 1 mod 256)`, leaves SP two lower modulo 256, and jumps; no flag, A, X, Y or other byte changes (46_jump.md R251;
20_memory.md R65, R70; the wrap of `pc - 1` is D14, log 17). -/
def Obligations.JsrPushesPcMinusOneAndJumps : Prop :=
  ∀ (op : ResolvedOperand) (s : State),
    ∃ t, exec (.jsr op) s = .next t ∧ t.pc = op.effectiveAddress ∧ t.sp.toNat = (s.sp.toNat + 254) % 256 ∧
      (stackAddr s.sp).toNat = 256 + s.sp.toNat ∧ (stackAddr (s.sp - 1)).toNat = 256 + (s.sp.toNat + 255) % 256 ∧
      (t.read (stackAddr s.sp)).toNat = (s.pc.toNat + 65535) % 65536 / 256 ∧
      (t.read (stackAddr (s.sp - 1))).toNat = (s.pc.toNat + 65535) % 65536 % 256 ∧
      (∀ addr : Addr, addr ≠ stackAddr s.sp → addr ≠ stackAddr (s.sp - 1) → t.read addr = s.read addr) ∧
      KeepsStatus s t ∧ t.a = s.a ∧ t.x = s.x ∧ t.y = s.y ∧ KeepsLatchAndPorts s t

/-- The environment's return after JSR: two POPs return the low and then the high byte of the pushed address, and SETPC of that address
plus one gives back `pc` and SP, leaving the rest but memory and `rdata` as before the call (46_jump.md R252; D14, D15, log 17, 18). -/
def Obligations.ReturnSequenceUndoesJsr : Prop :=
  ∀ (op : ResolvedOperand) (s : State) (f : AccessFields),
    ∃ t1 t2 t3 lo hi, exec (.jsr op) s = .next t1 ∧ exec (.pop f) t1 = .next t2 ∧ t2.rdata = some lo ∧
      exec (.pop f) t2 = .next t3 ∧ t3.rdata = some hi ∧
      ∃ t4, exec (.setpc { f with addr := hi * 256#16 + lo + 1#16 }) t3 = .next t4 ∧
        t4 = { s with mem := t1.mem, rdata := t3.rdata }

/-! ## The loads -/

/-- LDA, LDX and LDY complete in every state: the register holds the operand value, N and Z come from it, every other register, flag and
byte is kept, and no memory is read (47_load.md R270 to R273; D9, log 12). -/
def Obligations.LoadCopiesTheOperandAndSetsSignZero : Prop :=
  ∀ (op : ResolvedOperand) (s : State) (u : ResolvedOperand → Instr) (loaded : State),
    (u, loaded) ∈ [(Instr.lda, { s with a := op.operandValue }), (Instr.ldx, { s with x := op.operandValue }),
      (Instr.ldy, { s with y := op.operandValue })] →
    ∃ t, exec (u op) s = .next t ∧ t = { loaded with p := t.p } ∧
      (t.p.getLsbD 7 = true ↔ 128 ≤ op.operandValue.toNat) ∧ (t.p.getLsbD 1 = true ↔ op.operandValue = 0#8) ∧
      KeepsStatusBut [1, 7] s t

/-! ## The access operations -/

/-- GETB with a select 0 to 4 completes and returns that register, zero-extended, Status with bit 5 as 1; nothing else changes
(40_access_port.md R130; 10_state.md R37; select codes D5, bit 5 D8, log 7, 11). -/
def Obligations.GetbReturnsTheSelectedRegister : Prop :=
  ∀ (f : AccessFields) (s : State) (v : Byte),
    (f.idx, v) ∈ [(0#3, s.p ||| 0x20#8), (1#3, s.sp), (2#3, s.a), (3#3, s.x), (4#3, s.y)] →
    exec (.getb f) s = .next { s with rdata := some (BitVec.ofNat 16 v.toNat) }

/-- SETB with a select 0 to 4 completes and writes that register alone; Status takes `data | 0x20` (40_access_port.md R131;
10_state.md R37; select codes D5, bit 5 D8, log 7, 11). -/
def Obligations.SetbWritesTheSelectedRegister : Prop :=
  ∀ (f : AccessFields) (s t : State),
    (f.idx, t) ∈ [(0#3, { s with p := f.data ||| 0x20#8 }), (1#3, { s with sp := f.data }), (2#3, { s with a := f.data }),
      (3#3, { s with x := f.data }), (4#3, { s with y := f.data })] →
    exec (.setb f) s = .next t

/-- SETB then GETB of one register returns the value written, for Status exactly when its bit 5 is 1 and otherwise with bit 5 as 1
(10_state.md R37; 90_conflicts.md C1; D8, log 11). -/
def Obligations.SetbThenGetbReturnsTheValueWritten : Prop :=
  ∀ (f g : AccessFields) (s : State), f.idx.toNat ≤ 4 → g.idx = f.idx →
    ∃ t u v, exec (.setb f) s = .next t ∧ exec (.getb g) t = .next u ∧ u.rdata = some v ∧
      (f.idx ≠ 0#3 → v.toNat = f.data.toNat) ∧
      (f.idx = 0#3 → (v.toNat = f.data.toNat ↔ f.data.getLsbD 5 = true) ∧
        v.toNat = (f.data ||| 0x20#8).toNat)

/-- A flag read returns the bit of P at the flag's index and changes nothing; addressing index 5 is a violation with cause 1, although
a whole-byte read of Status shows bit 5 as 1 (10_state.md R29; 40_access_port.md R132; the form and the code of a violation are D6 and
D7, log 4, 6). -/
def Obligations.GetfReturnsTheIndexedFlag : Prop :=
  ∀ (f : AccessFields) (s : State),
    (f.idx.toNat ≠ 5 →
      exec (.getf f) s = .next { s with rdata := some (if s.p.getLsbD f.idx.toNat then 1#16 else 0#16) }) ∧
    (f.idx.toNat = 5 → exec (.getf f) s = .next { s with halted := true, haltCause := 1#3 }) ∧
    (∀ g : AccessFields, g.idx = 0#3 → ∃ t v, exec (.getb g) s = .next t ∧ t.rdata = some v ∧ v.getLsbD 5 = true)

/-- A flag write makes the bit at the flag's index the value and keeps every other bit of P and all other state; index 5 is a violation
with cause 1 whatever the value, and another index with a value above 1 a violation with cause 2 (10_state.md R28; 40_access_port.md
R133; 60_exceptions.md R297; the order, the form and the codes are D6 and D7, log 4, 6). -/
def Obligations.SetfWritesTheIndexedFlagAlone : Prop :=
  ∀ (f : AccessFields) (s : State),
    (f.idx.toNat ≠ 5 → f.data.toNat ≤ 1 →
      ∃ t, exec (.setf f) s = .next t ∧ t = { s with p := t.p } ∧
        t.p.getLsbD f.idx.toNat = decide (f.data.toNat = 1) ∧ KeepsStatusBut [f.idx.toNat] s t) ∧
    (f.idx.toNat = 5 → exec (.setf f) s = .next { s with halted := true, haltCause := 1#3 }) ∧
    (f.idx.toNat ≠ 5 → 1 < f.data.toNat → exec (.setf f) s = .next { s with halted := true, haltCause := 2#3 })

/-- GETB and SETB with a select 5 to 7 are a violation with cause 3 that writes nothing else (30_encoding.md R102; 60_exceptions.md R291;
D6, D7, log 4, 6). -/
def Obligations.InvalidRegisterSelectHaltsWithCause3 : Prop :=
  ∀ (f : AccessFields) (s : State), 4 < f.idx.toNat →
    exec (.getb f) s = .next { s with halted := true, haltCause := 3#3 } ∧
      exec (.setb f) s = .next { s with halted := true, haltCause := 3#3 }

/-- GETPC completes and returns `pc`, SETPC completes and makes `pc` the address field; neither changes anything else
(40_access_port.md R134, R135; D14, log 17). -/
def Obligations.GetpcAndSetpcReachThePc : Prop :=
  ∀ (f : AccessFields) (s : State),
    exec (.getpc f) s = .next { s with rdata := some s.pc } ∧ exec (.setpc f) s = .next { s with pc := f.addr }

/-- RD completes at every address, returns the byte there, zero-extended, and changes nothing (20_memory.md R62; 40_access_port.md
R136). -/
def Obligations.RdReturnsTheByteAndChangesNothing : Prop :=
  ∀ (f : AccessFields) (s : State),
    ∃ t v, exec (.rd f) s = .next t ∧ t = { s with rdata := some v } ∧ v.toNat = (s.read f.addr).toNat

/-- WR completes at every address, makes that byte the value and changes no other byte and no other state; a later RD of the address
returns the value (20_memory.md R63; 40_access_port.md R137). -/
def Obligations.WrStoresTheByteAndNothingElse : Prop :=
  ∀ (f : AccessFields) (s : State),
    ∃ t, exec (.wr f) s = .next t ∧ t = { s with mem := t.mem } ∧ t.read f.addr = f.data ∧ KeepsMemoryBut f.addr s t ∧
      (∀ g : AccessFields, g.addr = f.addr →
        ∃ u v, exec (.rd g) t = .next u ∧ u.rdata = some v ∧ v.toNat = f.data.toNat)

/-- PUSH completes in every state: the byte goes to `0x0100 + SP`, which lies in 0x0100 to 0x01FF, and SP is one lower modulo 256; no
other byte, flag or register changes (20_memory.md R70; 40_access_port.md R138). -/
def Obligations.PushStoresThenDecrements : Prop :=
  ∀ (f : AccessFields) (s : State),
    ∃ t, exec (.push f) s = .next t ∧ (stackAddr s.sp).toNat = 0x0100 + s.sp.toNat ∧ t.read (stackAddr s.sp) = f.data ∧
      KeepsMemoryBut (stackAddr s.sp) s t ∧ t.sp.toNat = (s.sp.toNat + 255) % 256 ∧
      t = { s with mem := t.mem, sp := t.sp }

/-- POP completes in every state: SP is one higher modulo 256 and the byte at the new stack pointer is returned; memory, flags and every
other register are kept (20_memory.md R71; 40_access_port.md R139; the read address and the wrap are D15, log 18). -/
def Obligations.PopIncrementsThenReads : Prop :=
  ∀ (f : AccessFields) (s : State),
    ∃ t v, exec (.pop f) s = .next t ∧ t.sp.toNat = (s.sp.toNat + 1) % 256 ∧
      (stackAddr t.sp).toNat = 0x0100 + (s.sp.toNat + 1) % 256 ∧ v.toNat = (s.read (stackAddr t.sp)).toNat ∧
      t = { s with sp := t.sp, rdata := some v }

/-- PUSH then POP returns the value pushed and leaves SP as before the push (20_memory.md R72, derived there from R70 and R71; D15,
log 18). -/
def Obligations.PushThenPopReturnsTheValue : Prop :=
  ∀ (f g : AccessFields) (s : State),
    ∃ t u v, exec (.push f) s = .next t ∧ exec (.pop g) t = .next u ∧ u.sp = s.sp ∧ u.rdata = some v ∧
      v.toNat = f.data.toNat ∧ u.mem = t.mem

/-- 256 pushes in a row bring SP back and overwrite the whole stack page, the n-th value at `0x0100 + (SP - n mod 256)`, and nothing
detects it; every byte outside the page is kept (20_memory.md R72). -/
def Obligations.TwoHundredFiftySixPushesOverwriteTheStackPage : Prop :=
  ∀ (vs : List Byte) (s : State), vs.length = 256 →
    ∃ t, pushAll vs s = .next t ∧ t = { s with mem := t.mem } ∧
      (∀ n (h : n < vs.length), t.read (BitVec.ofNat 16 (256 + (s.sp.toNat + 256 - n) % 256)) = vs[n]) ∧
      (∀ addr : Addr, addr.toNat < 256 ∨ 512 ≤ addr.toNat → t.read addr = s.read addr)

/-! ## The reference harness -/

/-- The harness keeps the driver's contract: on a running block it resolves every entry with one of its six tags, the operand carries the
entry's tag, its value and address are those of the table of section 4.1, so the value is the one R341 asks for, and resolving changes no
register, flag, `pc`, latch or byte (95_test_vectors.md section 4.1; 70_reset_and_hazards.md R341, R342; D9, D23, log 12, 21, 22; the
returned value held in `rdata` is log 2). -/
def Obligations.HarnessResolvesWhatTheDriverOwes : Prop :=
  ∀ (e : HarnessEntry) (s : State), s.halted = false → harnessResolves e.tag = true →
    ∃ op t, resolve e s = some (op, t) ∧ op.mode = e.tag ∧ DriverContract op t ∧ t = { s with rdata := t.rdata } ∧
      (e.tag = .immediate → op.operandValue = e.arg.setWidth 8 ∧ op.effectiveAddress = 0#16) ∧
      (e.tag = .absolute ∨ e.tag = .zeroPageAbsolute →
        op.operandValue = s.read e.arg ∧ op.effectiveAddress = e.arg) ∧
      (e.tag = .accumulator → op.operandValue = s.a ∧ op.effectiveAddress = 0#16) ∧
      (e.tag = .implied → op.operandValue = 0#8 ∧ op.effectiveAddress = 0#16) ∧
      (e.tag = .relative → op.operandValue = 0#8 ∧ op.effectiveAddress = e.arg)

/-- One entry of a harness program: `pc` is advanced by the entry's length first, the operand is resolved in the state that leaves, and
the command issued is the entry's unit with exactly that operand; so the command runs with the address of the next instruction in `pc`
(95_test_vectors.md section 4.1; 70_reset_and_hazards.md R344; D18, D23, log 21, 22). That nothing is returned when the operand is resolved
and when the command runs is log 2. -/
def Obligations.HarnessAdvancesPcBeforeTheCommand : Prop :=
  ∀ (pc : Addr) (e : HarnessEntry) (s : State), s.halted = false → harnessResolves e.tag = true → e.unit.toNat ≤ 24 →
    ∃ u op s2 t, unitsInOrder[e.unit.toNat]? = some u ∧
      resolve e { s with pc := BitVec.ofNat 16 (pc.toNat + e.length), rdata := none } = some (op, s2) ∧
      harnessCommand pc e s = some t ∧
      exec (u op) { s with pc := BitVec.ofNat 16 (pc.toNat + e.length), rdata := none } = .next t ∧ t.halted = false
end

