-- ==== Sys2Proof/Laws/Decode.lean ====
section
/-! SUPPORT. The fields of an encoded word, and the code tables read both ways. -/

namespace Sys2Proof

/-- Bit by bit, a command word is its effective address, its operand value, its mode code and its unit code (30_encoding.md R91). -/
theorem getLsbD_commandWord (unit : BitVec 5) (op : ResolvedOperand) (k : Nat) :
    (commandWord unit op).getLsbD k =
      if k < 16 then op.effectiveAddress.getLsbD k
      else if k - 16 < 8 then op.operandValue.getLsbD (k - 16)
      else if k - 16 - 8 < 4 then (modeCode op.mode).getLsbD (k - 16 - 8)
      else unit.getLsbD (k - 16 - 8 - 4) := by
  show BitVec.getLsbD (w := 5 + 4 + 8 + 16) (unit ++ modeCode op.mode ++ op.operandValue ++ op.effectiveAddress) k = _
  simp only [BitVec.getLsbD_append]

/-- Bit by bit, an access word is its address, its data, its index and its operation code (30_encoding.md R98). -/
theorem getLsbD_accessWord (aop : BitVec 4) (f : AccessFields) (k : Nat) :
    (accessWord aop f).getLsbD k =
      if k < 16 then f.addr.getLsbD k
      else if k - 16 < 8 then f.data.getLsbD (k - 16)
      else if k - 16 - 8 < 3 then f.idx.getLsbD (k - 16 - 8)
      else aop.getLsbD (k - 16 - 8 - 3) := by
  show BitVec.getLsbD (w := 4 + 3 + 8 + 16) (aop ++ f.idx ++ f.data ++ f.addr) k = _
  simp only [BitVec.getLsbD_append]

@[simp] theorem unitField_commandWord (unit : BitVec 5) (op : ResolvedOperand) : unitField (commandWord unit op) = unit := by
  apply BitVec.eq_of_getLsbD_eq; intro k hk
  rw [unitField, BitVec.getLsbD_extractLsb', getLsbD_commandWord, if_neg (by omega), if_neg (by omega), if_neg (by omega)]
  simp only [hk, decide_true, Bool.true_and]; congr 1; omega

@[simp] theorem modeField_commandWord (unit : BitVec 5) (op : ResolvedOperand) :
    modeField (commandWord unit op) = modeCode op.mode := by
  apply BitVec.eq_of_getLsbD_eq; intro k hk
  rw [modeField, BitVec.getLsbD_extractLsb', getLsbD_commandWord, if_neg (by omega), if_neg (by omega), if_pos (by omega)]
  simp only [hk, decide_true, Bool.true_and]; congr 1; omega

@[simp] theorem operandValueField_commandWord (unit : BitVec 5) (op : ResolvedOperand) :
    operandValueField (commandWord unit op) = op.operandValue := by
  apply BitVec.eq_of_getLsbD_eq; intro k hk
  rw [operandValueField, BitVec.getLsbD_extractLsb', getLsbD_commandWord, if_neg (by omega), if_pos (by omega)]
  simp only [hk, decide_true, Bool.true_and]; congr 1; omega

@[simp] theorem effectiveAddressField_commandWord (unit : BitVec 5) (op : ResolvedOperand) :
    effectiveAddressField (commandWord unit op) = op.effectiveAddress := by
  apply BitVec.eq_of_getLsbD_eq; intro k hk
  rw [effectiveAddressField, BitVec.getLsbD_extractLsb', getLsbD_commandWord, if_pos (by omega)]
  simp only [hk, decide_true, Bool.true_and]; congr 1; omega

@[simp] theorem accessOpField_accessWord (aop : BitVec 4) (f : AccessFields) : accessOpField (accessWord aop f) = aop := by
  apply BitVec.eq_of_getLsbD_eq; intro k hk
  rw [accessOpField, BitVec.getLsbD_extractLsb', getLsbD_accessWord, if_neg (by omega), if_neg (by omega), if_neg (by omega)]
  simp only [hk, decide_true, Bool.true_and]; congr 1; omega

@[simp] theorem idxField_accessWord (aop : BitVec 4) (f : AccessFields) : idxField (accessWord aop f) = f.idx := by
  apply BitVec.eq_of_getLsbD_eq; intro k hk
  rw [idxField, BitVec.getLsbD_extractLsb', getLsbD_accessWord, if_neg (by omega), if_neg (by omega), if_pos (by omega)]
  simp only [hk, decide_true, Bool.true_and]; congr 1; omega

@[simp] theorem dataField_accessWord (aop : BitVec 4) (f : AccessFields) : dataField (accessWord aop f) = f.data := by
  apply BitVec.eq_of_getLsbD_eq; intro k hk
  rw [dataField, BitVec.getLsbD_extractLsb', getLsbD_accessWord, if_neg (by omega), if_pos (by omega)]
  simp only [hk, decide_true, Bool.true_and]; congr 1; omega

@[simp] theorem addrField_accessWord (aop : BitVec 4) (f : AccessFields) : addrField (accessWord aop f) = f.addr := by
  apply BitVec.eq_of_getLsbD_eq; intro k hk
  rw [addrField, BitVec.getLsbD_extractLsb', getLsbD_accessWord, if_pos (by omega)]
  simp only [hk, decide_true, Bool.true_and]; congr 1; omega

@[simp] theorem accessFields_accessWord (aop : BitVec 4) (f : AccessFields) : accessFields (accessWord aop f) = f := by
  simp [accessFields]

@[simp] theorem modeOfCode_modeCode (m : Mode) : modeOfCode (modeCode m) = some m := by cases m <;> rfl

/-- A mode code is a tag's own code. -/
theorem modeCode_of_modeOfCode (code : BitVec 4) (m : Mode) (h : modeOfCode code = some m) : modeCode m = code := by
  revert h; revert m; revert code; decide

/-- A command word is put together again from its fields. -/
theorem commandWord_fields (cw : CommandWord) (m : Mode) (h : modeOfCode (modeField cw) = some m) :
    commandWord (unitField cw) ⟨m, operandValueField cw, effectiveAddressField cw⟩ = cw := by
  apply BitVec.eq_of_getLsbD_eq; intro k hk
  rw [getLsbD_commandWord]
  simp only [modeCode_of_modeOfCode _ _ h, modeField, unitField, operandValueField, effectiveAddressField,
    BitVec.getLsbD_extractLsb']
  split_ifs
  all_goals
    rw [decide_eq_true (by omega), Bool.true_and]
    congr 1; omega

/-- An access word is put together again from its fields. -/
theorem accessWord_fields (aw : AccessWord) : accessWord (accessOpField aw) (accessFields aw) = aw := by
  apply BitVec.eq_of_getLsbD_eq; intro k hk
  rw [getLsbD_accessWord]
  simp only [accessFields, accessOpField, idxField, dataField, addrField, BitVec.getLsbD_extractLsb']
  split_ifs
  all_goals
    rw [decide_eq_true (by omega), Bool.true_and]
    congr 1; omega

/-! ## The fields as numbers -/

theorem unitField_toNat (cw : CommandWord) : (unitField cw).toNat = cw.toNat / 2 ^ 28 := by
  have := cw.isLt
  simp only [unitField, BitVec.extractLsb'_toNat, Nat.shiftRight_eq_div_pow]; omega

theorem modeField_toNat (cw : CommandWord) : (modeField cw).toNat = cw.toNat / 2 ^ 24 % 16 := by
  simp only [modeField, BitVec.extractLsb'_toNat, Nat.shiftRight_eq_div_pow]

theorem operandValueField_eq (cw : CommandWord) : operandValueField cw = BitVec.ofNat 8 (cw.toNat / 2 ^ 16 % 256) := by
  apply BitVec.eq_of_toNat_eq
  simp only [operandValueField, BitVec.extractLsb'_toNat, Nat.shiftRight_eq_div_pow, BitVec.toNat_ofNat]; omega

theorem effectiveAddressField_eq (cw : CommandWord) : effectiveAddressField cw = BitVec.ofNat 16 (cw.toNat % 65536) := by
  apply BitVec.eq_of_toNat_eq
  simp only [effectiveAddressField, BitVec.extractLsb'_toNat, Nat.shiftRight_eq_div_pow, BitVec.toNat_ofNat]; omega

theorem accessOpField_toNat (aw : AccessWord) : (accessOpField aw).toNat = aw.toNat / 2 ^ 27 := by
  have := aw.isLt
  simp only [accessOpField, BitVec.extractLsb'_toNat, Nat.shiftRight_eq_div_pow]; omega

theorem accessFields_eq (aw : AccessWord) :
    accessFields aw =
      ⟨BitVec.ofNat 3 (aw.toNat / 2 ^ 24 % 8), BitVec.ofNat 8 (aw.toNat / 2 ^ 16 % 256), BitVec.ofNat 16 (aw.toNat % 65536)⟩ := by
  simp only [accessFields, AccessFields.mk.injEq]
  refine ⟨?_, ?_, ?_⟩ <;> apply BitVec.eq_of_toNat_eq <;>
    simp only [idxField, dataField, addrField, BitVec.extractLsb'_toNat, Nat.shiftRight_eq_div_pow, BitVec.toNat_ofNat] <;> omega

end Sys2Proof
end

