-- ==== Sys2Proof/Laws/State.lean ====
section
/-! SUPPORT. What each update of State does to each field: one lemma per field per update, so that no proof unfolds a record update. -/

namespace Sys2Proof.Machine

/-! ### write -/

@[simp] theorem write_pc (s : State) (addr : Addr) (v : Byte) : (s.write addr v).pc = s.pc := rfl
@[simp] theorem write_p (s : State) (addr : Addr) (v : Byte) : (s.write addr v).p = s.p := rfl
@[simp] theorem write_sp (s : State) (addr : Addr) (v : Byte) : (s.write addr v).sp = s.sp := rfl
@[simp] theorem write_a (s : State) (addr : Addr) (v : Byte) : (s.write addr v).a = s.a := rfl
@[simp] theorem write_x (s : State) (addr : Addr) (v : Byte) : (s.write addr v).x = s.x := rfl
@[simp] theorem write_y (s : State) (addr : Addr) (v : Byte) : (s.write addr v).y = s.y := rfl
@[simp] theorem write_mem (s : State) (addr : Addr) (v : Byte) : (s.write addr v).mem = Memory.write s.mem addr v := rfl
@[simp] theorem write_halted (s : State) (addr : Addr) (v : Byte) : (s.write addr v).halted = s.halted := rfl
@[simp] theorem write_haltCause (s : State) (addr : Addr) (v : Byte) : (s.write addr v).haltCause = s.haltCause := rfl
@[simp] theorem write_pending (s : State) (addr : Addr) (v : Byte) : (s.write addr v).pending = s.pending := rfl
@[simp] theorem write_rdata (s : State) (addr : Addr) (v : Byte) : (s.write addr v).rdata = s.rdata := rfl

/-! ### writePc -/

@[simp] theorem writePc_pc (s : State) (target : Addr) : (s.writePc target).pc = target := rfl
@[simp] theorem writePc_p (s : State) (target : Addr) : (s.writePc target).p = s.p := rfl
@[simp] theorem writePc_sp (s : State) (target : Addr) : (s.writePc target).sp = s.sp := rfl
@[simp] theorem writePc_a (s : State) (target : Addr) : (s.writePc target).a = s.a := rfl
@[simp] theorem writePc_x (s : State) (target : Addr) : (s.writePc target).x = s.x := rfl
@[simp] theorem writePc_y (s : State) (target : Addr) : (s.writePc target).y = s.y := rfl
@[simp] theorem writePc_mem (s : State) (target : Addr) : (s.writePc target).mem = s.mem := rfl
@[simp] theorem writePc_halted (s : State) (target : Addr) : (s.writePc target).halted = s.halted := rfl
@[simp] theorem writePc_haltCause (s : State) (target : Addr) : (s.writePc target).haltCause = s.haltCause := rfl
@[simp] theorem writePc_pending (s : State) (target : Addr) : (s.writePc target).pending = s.pending := rfl
@[simp] theorem writePc_rdata (s : State) (target : Addr) : (s.writePc target).rdata = s.rdata := rfl

/-! ### setFlag -/

@[simp] theorem setFlag_pc (s : State) (f : Flag) (b : Bool) : (s.setFlag f b).pc = s.pc := rfl
@[simp] theorem setFlag_p (s : State) (f : Flag) (b : Bool) : (s.setFlag f b).p = withFlag s.p f b := rfl
@[simp] theorem setFlag_sp (s : State) (f : Flag) (b : Bool) : (s.setFlag f b).sp = s.sp := rfl
@[simp] theorem setFlag_a (s : State) (f : Flag) (b : Bool) : (s.setFlag f b).a = s.a := rfl
@[simp] theorem setFlag_x (s : State) (f : Flag) (b : Bool) : (s.setFlag f b).x = s.x := rfl
@[simp] theorem setFlag_y (s : State) (f : Flag) (b : Bool) : (s.setFlag f b).y = s.y := rfl
@[simp] theorem setFlag_mem (s : State) (f : Flag) (b : Bool) : (s.setFlag f b).mem = s.mem := rfl
@[simp] theorem setFlag_halted (s : State) (f : Flag) (b : Bool) : (s.setFlag f b).halted = s.halted := rfl
@[simp] theorem setFlag_haltCause (s : State) (f : Flag) (b : Bool) : (s.setFlag f b).haltCause = s.haltCause := rfl
@[simp] theorem setFlag_pending (s : State) (f : Flag) (b : Bool) : (s.setFlag f b).pending = s.pending := rfl
@[simp] theorem setFlag_rdata (s : State) (f : Flag) (b : Bool) : (s.setFlag f b).rdata = s.rdata := rfl

/-! ### push -/

@[simp] theorem push_pc (s : State) (v : Byte) : (s.push v).pc = s.pc := rfl
@[simp] theorem push_p (s : State) (v : Byte) : (s.push v).p = s.p := rfl
@[simp] theorem push_sp (s : State) (v : Byte) : (s.push v).sp = s.sp - 1 := rfl
@[simp] theorem push_a (s : State) (v : Byte) : (s.push v).a = s.a := rfl
@[simp] theorem push_x (s : State) (v : Byte) : (s.push v).x = s.x := rfl
@[simp] theorem push_y (s : State) (v : Byte) : (s.push v).y = s.y := rfl
@[simp] theorem push_mem (s : State) (v : Byte) : (s.push v).mem = Memory.write s.mem (stackAddr s.sp) v := rfl
@[simp] theorem push_halted (s : State) (v : Byte) : (s.push v).halted = s.halted := rfl
@[simp] theorem push_haltCause (s : State) (v : Byte) : (s.push v).haltCause = s.haltCause := rfl
@[simp] theorem push_pending (s : State) (v : Byte) : (s.push v).pending = s.pending := rfl
@[simp] theorem push_rdata (s : State) (v : Byte) : (s.push v).rdata = s.rdata := rfl

/-! ### popped -/

@[simp] theorem popped_pc (s : State) : s.popped.pc = s.pc := rfl
@[simp] theorem popped_p (s : State) : s.popped.p = s.p := rfl
@[simp] theorem popped_sp (s : State) : s.popped.sp = s.sp + 1 := rfl
@[simp] theorem popped_a (s : State) : s.popped.a = s.a := rfl
@[simp] theorem popped_x (s : State) : s.popped.x = s.x := rfl
@[simp] theorem popped_y (s : State) : s.popped.y = s.y := rfl
@[simp] theorem popped_mem (s : State) : s.popped.mem = s.mem := rfl
@[simp] theorem popped_halted (s : State) : s.popped.halted = s.halted := rfl
@[simp] theorem popped_haltCause (s : State) : s.popped.haltCause = s.haltCause := rfl
@[simp] theorem popped_pending (s : State) : s.popped.pending = s.pending := rfl
@[simp] theorem popped_rdata (s : State) : s.popped.rdata = s.rdata := rfl

/-! ### returning -/

@[simp] theorem returning_pc (s : State) (v : Wide) : (s.returning v).pc = s.pc := rfl
@[simp] theorem returning_p (s : State) (v : Wide) : (s.returning v).p = s.p := rfl
@[simp] theorem returning_sp (s : State) (v : Wide) : (s.returning v).sp = s.sp := rfl
@[simp] theorem returning_a (s : State) (v : Wide) : (s.returning v).a = s.a := rfl
@[simp] theorem returning_x (s : State) (v : Wide) : (s.returning v).x = s.x := rfl
@[simp] theorem returning_y (s : State) (v : Wide) : (s.returning v).y = s.y := rfl
@[simp] theorem returning_mem (s : State) (v : Wide) : (s.returning v).mem = s.mem := rfl
@[simp] theorem returning_halted (s : State) (v : Wide) : (s.returning v).halted = s.halted := rfl
@[simp] theorem returning_haltCause (s : State) (v : Wide) : (s.returning v).haltCause = s.haltCause := rfl
@[simp] theorem returning_pending (s : State) (v : Wide) : (s.returning v).pending = s.pending := rfl
@[simp] theorem returning_rdata (s : State) (v : Wide) : (s.returning v).rdata = some v := rfl

/-! ### raise -/

@[simp] theorem raise_pc (s : State) (c : Cause) : (s.raise c).pc = s.pc := rfl
@[simp] theorem raise_p (s : State) (c : Cause) : (s.raise c).p = s.p := rfl
@[simp] theorem raise_sp (s : State) (c : Cause) : (s.raise c).sp = s.sp := rfl
@[simp] theorem raise_a (s : State) (c : Cause) : (s.raise c).a = s.a := rfl
@[simp] theorem raise_x (s : State) (c : Cause) : (s.raise c).x = s.x := rfl
@[simp] theorem raise_y (s : State) (c : Cause) : (s.raise c).y = s.y := rfl
@[simp] theorem raise_mem (s : State) (c : Cause) : (s.raise c).mem = s.mem := rfl
@[simp] theorem raise_halted (s : State) (c : Cause) : (s.raise c).halted = true := rfl
@[simp] theorem raise_haltCause (s : State) (c : Cause) : (s.raise c).haltCause = causeCode c := rfl
@[simp] theorem raise_pending (s : State) (c : Cause) : (s.raise c).pending = s.pending := rfl
@[simp] theorem raise_rdata (s : State) (c : Cause) : (s.raise c).rdata = s.rdata := rfl

/-! ### accept -/

@[simp] theorem accept_pc (s : State) (rest : List Transaction) : (s.accept rest).pc = s.pc := rfl
@[simp] theorem accept_p (s : State) (rest : List Transaction) : (s.accept rest).p = s.p := rfl
@[simp] theorem accept_sp (s : State) (rest : List Transaction) : (s.accept rest).sp = s.sp := rfl
@[simp] theorem accept_a (s : State) (rest : List Transaction) : (s.accept rest).a = s.a := rfl
@[simp] theorem accept_x (s : State) (rest : List Transaction) : (s.accept rest).x = s.x := rfl
@[simp] theorem accept_y (s : State) (rest : List Transaction) : (s.accept rest).y = s.y := rfl
@[simp] theorem accept_mem (s : State) (rest : List Transaction) : (s.accept rest).mem = s.mem := rfl
@[simp] theorem accept_halted (s : State) (rest : List Transaction) : (s.accept rest).halted = s.halted := rfl
@[simp] theorem accept_haltCause (s : State) (rest : List Transaction) : (s.accept rest).haltCause = s.haltCause := rfl
@[simp] theorem accept_pending (s : State) (rest : List Transaction) : (s.accept rest).pending = rest := rfl
@[simp] theorem accept_rdata (s : State) (rest : List Transaction) : (s.accept rest).rdata = none := rfl

/-! ### afterReset -/

@[simp] theorem afterReset_pc (rest : List Transaction) : (State.afterReset rest).pc = 0x0000#16 := rfl
@[simp] theorem afterReset_p (rest : List Transaction) : (State.afterReset rest).p = 0x20#8 := rfl
@[simp] theorem afterReset_sp (rest : List Transaction) : (State.afterReset rest).sp = 0x00#8 := rfl
@[simp] theorem afterReset_a (rest : List Transaction) : (State.afterReset rest).a = 0x00#8 := rfl
@[simp] theorem afterReset_x (rest : List Transaction) : (State.afterReset rest).x = 0x00#8 := rfl
@[simp] theorem afterReset_y (rest : List Transaction) : (State.afterReset rest).y = 0x00#8 := rfl
@[simp] theorem afterReset_mem (rest : List Transaction) : (State.afterReset rest).mem = [] := rfl
@[simp] theorem afterReset_halted (rest : List Transaction) : (State.afterReset rest).halted = false := rfl
@[simp] theorem afterReset_haltCause (rest : List Transaction) : (State.afterReset rest).haltCause = 0#3 := rfl
@[simp] theorem afterReset_pending (rest : List Transaction) : (State.afterReset rest).pending = rest := rfl
@[simp] theorem afterReset_rdata (rest : List Transaction) : (State.afterReset rest).rdata = none := rfl

/-! ### writeReg: the registers each select names, and the fields no select names -/

@[simp] theorem writeReg_status_p (s : State) (v : Byte) : (s.writeReg .status v).p = hardwired v := rfl
@[simp] theorem writeReg_status_sp (s : State) (v : Byte) : (s.writeReg .status v).sp = s.sp := rfl
@[simp] theorem writeReg_status_a (s : State) (v : Byte) : (s.writeReg .status v).a = s.a := rfl
@[simp] theorem writeReg_status_x (s : State) (v : Byte) : (s.writeReg .status v).x = s.x := rfl
@[simp] theorem writeReg_status_y (s : State) (v : Byte) : (s.writeReg .status v).y = s.y := rfl
@[simp] theorem writeReg_stack_p (s : State) (v : Byte) : (s.writeReg .stack v).p = s.p := rfl
@[simp] theorem writeReg_stack_sp (s : State) (v : Byte) : (s.writeReg .stack v).sp = v := rfl
@[simp] theorem writeReg_stack_a (s : State) (v : Byte) : (s.writeReg .stack v).a = s.a := rfl
@[simp] theorem writeReg_stack_x (s : State) (v : Byte) : (s.writeReg .stack v).x = s.x := rfl
@[simp] theorem writeReg_stack_y (s : State) (v : Byte) : (s.writeReg .stack v).y = s.y := rfl
@[simp] theorem writeReg_accumulator_p (s : State) (v : Byte) : (s.writeReg .accumulator v).p = s.p := rfl
@[simp] theorem writeReg_accumulator_sp (s : State) (v : Byte) : (s.writeReg .accumulator v).sp = s.sp := rfl
@[simp] theorem writeReg_accumulator_a (s : State) (v : Byte) : (s.writeReg .accumulator v).a = v := rfl
@[simp] theorem writeReg_accumulator_x (s : State) (v : Byte) : (s.writeReg .accumulator v).x = s.x := rfl
@[simp] theorem writeReg_accumulator_y (s : State) (v : Byte) : (s.writeReg .accumulator v).y = s.y := rfl
@[simp] theorem writeReg_indexX_p (s : State) (v : Byte) : (s.writeReg .indexX v).p = s.p := rfl
@[simp] theorem writeReg_indexX_sp (s : State) (v : Byte) : (s.writeReg .indexX v).sp = s.sp := rfl
@[simp] theorem writeReg_indexX_a (s : State) (v : Byte) : (s.writeReg .indexX v).a = s.a := rfl
@[simp] theorem writeReg_indexX_x (s : State) (v : Byte) : (s.writeReg .indexX v).x = v := rfl
@[simp] theorem writeReg_indexX_y (s : State) (v : Byte) : (s.writeReg .indexX v).y = s.y := rfl
@[simp] theorem writeReg_indexY_p (s : State) (v : Byte) : (s.writeReg .indexY v).p = s.p := rfl
@[simp] theorem writeReg_indexY_sp (s : State) (v : Byte) : (s.writeReg .indexY v).sp = s.sp := rfl
@[simp] theorem writeReg_indexY_a (s : State) (v : Byte) : (s.writeReg .indexY v).a = s.a := rfl
@[simp] theorem writeReg_indexY_x (s : State) (v : Byte) : (s.writeReg .indexY v).x = s.x := rfl
@[simp] theorem writeReg_indexY_y (s : State) (v : Byte) : (s.writeReg .indexY v).y = v := rfl
@[simp] theorem writeReg_pc (s : State) (r : Reg) (v : Byte) : (s.writeReg r v).pc = s.pc := by cases r <;> rfl
@[simp] theorem writeReg_mem (s : State) (r : Reg) (v : Byte) : (s.writeReg r v).mem = s.mem := by cases r <;> rfl
@[simp] theorem writeReg_halted (s : State) (r : Reg) (v : Byte) : (s.writeReg r v).halted = s.halted := by cases r <;> rfl
@[simp] theorem writeReg_haltCause (s : State) (r : Reg) (v : Byte) : (s.writeReg r v).haltCause = s.haltCause := by cases r <;> rfl
@[simp] theorem writeReg_pending (s : State) (r : Reg) (v : Byte) : (s.writeReg r v).pending = s.pending := by cases r <;> rfl
@[simp] theorem writeReg_rdata (s : State) (r : Reg) (v : Byte) : (s.writeReg r v).rdata = s.rdata := by cases r <;> rfl

/-! ### setSignZero, compare and load: only P and the loaded register change -/

@[simp] theorem setSignZero_pc (s : State) (v : Byte) : (s.setSignZero v).pc = s.pc := rfl
@[simp] theorem setSignZero_p (s : State) (v : Byte) : (s.setSignZero v).p = withFlag (withFlag s.p .sign (signOf v)) .zero (zeroOf v) := rfl
@[simp] theorem setSignZero_sp (s : State) (v : Byte) : (s.setSignZero v).sp = s.sp := rfl
@[simp] theorem setSignZero_a (s : State) (v : Byte) : (s.setSignZero v).a = s.a := rfl
@[simp] theorem setSignZero_x (s : State) (v : Byte) : (s.setSignZero v).x = s.x := rfl
@[simp] theorem setSignZero_y (s : State) (v : Byte) : (s.setSignZero v).y = s.y := rfl
@[simp] theorem setSignZero_mem (s : State) (v : Byte) : (s.setSignZero v).mem = s.mem := rfl
@[simp] theorem setSignZero_halted (s : State) (v : Byte) : (s.setSignZero v).halted = s.halted := rfl
@[simp] theorem setSignZero_haltCause (s : State) (v : Byte) : (s.setSignZero v).haltCause = s.haltCause := rfl
@[simp] theorem setSignZero_pending (s : State) (v : Byte) : (s.setSignZero v).pending = s.pending := rfl
@[simp] theorem setSignZero_rdata (s : State) (v : Byte) : (s.setSignZero v).rdata = s.rdata := rfl

@[simp] theorem compare_pc (s : State) (r m : Byte) : (s.compare r m).pc = s.pc := rfl
@[simp] theorem compare_sp (s : State) (r m : Byte) : (s.compare r m).sp = s.sp := rfl
@[simp] theorem compare_a (s : State) (r m : Byte) : (s.compare r m).a = s.a := rfl
@[simp] theorem compare_x (s : State) (r m : Byte) : (s.compare r m).x = s.x := rfl
@[simp] theorem compare_y (s : State) (r m : Byte) : (s.compare r m).y = s.y := rfl
@[simp] theorem compare_mem (s : State) (r m : Byte) : (s.compare r m).mem = s.mem := rfl
@[simp] theorem compare_halted (s : State) (r m : Byte) : (s.compare r m).halted = s.halted := rfl
@[simp] theorem compare_haltCause (s : State) (r m : Byte) : (s.compare r m).haltCause = s.haltCause := rfl
@[simp] theorem compare_pending (s : State) (r m : Byte) : (s.compare r m).pending = s.pending := rfl
@[simp] theorem compare_rdata (s : State) (r m : Byte) : (s.compare r m).rdata = s.rdata := rfl

/-! ### reading a byte after an update -/

@[simp] theorem writePc_read (s : State) (target : Addr) (at_ : Addr) : (s.writePc target).read at_ = s.read at_ := rfl
@[simp] theorem setFlag_read (s : State) (f : Flag) (b : Bool) (at_ : Addr) : (s.setFlag f b).read at_ = s.read at_ := rfl
@[simp] theorem popped_read (s : State) (at_ : Addr) : s.popped.read at_ = s.read at_ := rfl
@[simp] theorem returning_read (s : State) (v : Wide) (at_ : Addr) : (s.returning v).read at_ = s.read at_ := rfl
@[simp] theorem raise_read (s : State) (c : Cause) (at_ : Addr) : (s.raise c).read at_ = s.read at_ := rfl
@[simp] theorem accept_read (s : State) (rest : List Transaction) (at_ : Addr) : (s.accept rest).read at_ = s.read at_ := rfl
@[simp] theorem writeReg_read (s : State) (r : Reg) (v : Byte) (at_ : Addr) : (s.writeReg r v).read at_ = s.read at_ := by
  cases r <;> rfl
@[simp] theorem setSignZero_read (s : State) (v : Byte) (at_ : Addr) : (s.setSignZero v).read at_ = s.read at_ := rfl
@[simp] theorem compare_read (s : State) (r m : Byte) (at_ : Addr) : (s.compare r m).read at_ = s.read at_ := rfl
@[simp] theorem afterReset_read (rest : List Transaction) (at_ : Addr) : (State.afterReset rest).read at_ = 0x00#8 := rfl

end Sys2Proof.Machine
end

