-- ==== Sys2Proof/Laws/Memory.lean ====
section
/-! SUPPORT. The laws of memory: what is read after a write, and that the canonical form is kept. -/

namespace Sys2Proof.Machine

theorem lookup_place (m : Memory) (n k : Nat) (v : Byte) (h : ∀ c ∈ m, c.1 ≠ n) :
    Memory.lookup (Memory.place n v m) k = if n = k then v else Memory.lookup m k := by
  induction m with
  | nil => rfl
  | cons c rest ih =>
    obtain ⟨q, b⟩ := c
    have hq : q ≠ n := h (q, b) (by simp)
    have ih := ih fun c hc => h c (by simp [hc])
    by_cases hlt : n < q
    · simp [Memory.place, Memory.lookup, hlt]
    · simp only [Memory.place, hlt, if_false, Memory.lookup, ih]
      split_ifs <;> simp_all

theorem lookup_others (m : Memory) (n k : Nat) :
    Memory.lookup (m.filter (fun c => c.1 != n)) k = if n = k then Memory.unlisted else Memory.lookup m k := by
  induction m with
  | nil => simp [Memory.lookup]
  | cons c rest ih =>
    obtain ⟨q, b⟩ := c
    by_cases hq : q = n
    · subst hq; simp [ih, Memory.lookup]; split_ifs <;> rfl
    · simp only [List.filter_cons, bne_iff_ne, ne_eq, hq, not_false_eq_true, if_true, Memory.lookup, ih]
      split_ifs <;> simp_all

/-- What a write does to every read: the written address reads the value, every other address reads as before. -/
theorem Memory.read_write (m : Memory) (addr at_ : Addr) (v : Byte) :
    Memory.read (Memory.write m addr v) at_ = if at_ = addr then v else Memory.read m at_ := by
  have hne : ∀ c ∈ m.filter (fun c => c.1 != addr.toNat), c.1 ≠ addr.toNat := by
    intro c hc; simpa using (List.mem_filter.mp hc).2
  have heq : (addr.toNat = at_.toNat) ↔ (at_ = addr) := by
    rw [← BitVec.toNat_inj]; exact eq_comm
  unfold Memory.read Memory.write
  by_cases hv : v = Memory.unlisted
  · simp [hv, lookup_others, heq]
  · simp only [hv, if_false, lookup_place _ _ _ _ hne, lookup_others, heq]
    split_ifs <;> rfl

@[simp] theorem State.read_write (s : State) (addr at_ : Addr) (v : Byte) :
    (s.write addr v).read at_ = if at_ = addr then v else s.read at_ :=
  Memory.read_write s.mem addr at_ v

@[simp] theorem State.read_push (s : State) (v : Byte) (at_ : Addr) :
    (s.push v).read at_ = if at_ = stackAddr s.sp then v else s.read at_ :=
  Memory.read_write s.mem (stackAddr s.sp) at_ v

theorem mem_place (m : Memory) (n : Nat) (v : Byte) (c : Host.Cell) :
    c ∈ Memory.place n v m ↔ c = (n, v) ∨ c ∈ m := by
  induction m with
  | nil => simp [Memory.place]
  | cons d rest ih =>
    obtain ⟨q, b⟩ := d
    by_cases hlt : n < q
    · simp [Memory.place, hlt]
    · simp only [Memory.place, hlt, if_false, List.mem_cons, ih]; tauto

theorem place_rising (m : Memory) (n : Nat) (v : Byte) (hm : List.Pairwise (fun c d => c.1 < d.1) m)
    (h : ∀ c ∈ m, c.1 ≠ n) : List.Pairwise (fun c d => c.1 < d.1) (Memory.place n v m) := by
  induction m with
  | nil => simp [Memory.place]
  | cons d rest ih =>
    obtain ⟨q, b⟩ := d
    obtain ⟨hd, hrest⟩ := List.pairwise_cons.mp hm
    by_cases hlt : n < q
    · simp only [Memory.place, hlt, if_true]
      refine List.pairwise_cons.mpr ⟨?_, hm⟩
      intro c hc
      rcases List.mem_cons.mp hc with rfl | hc
      · exact hlt
      · exact Nat.lt_trans hlt (hd c hc)
    · simp only [Memory.place, hlt, if_false]
      refine List.pairwise_cons.mpr ⟨?_, ih hrest fun c hc => h c (by simp [hc])⟩
      intro c hc
      rcases (mem_place rest n v c).mp hc with rfl | hc
      · have := h (q, b) (by simp); simp only at this ⊢; omega
      · exact hd c hc

/-- Every write keeps the canonical form. -/
theorem Memory.wf_write (m : Memory) (addr : Addr) (v : Byte) (hm : Memory.wf m) : Memory.wf (Memory.write m addr v) := by
  obtain ⟨hr, hc⟩ := hm
  have hf : List.Pairwise (fun c d => c.1 < d.1) (m.filter (fun c => c.1 != addr.toNat)) := hr.filter _
  have hfc : ∀ c ∈ m.filter (fun c => c.1 != addr.toNat), c.2 ≠ Memory.unlisted ∧ c.1 < Config.memorySize :=
    fun c h => hc c (List.mem_filter.mp h).1
  unfold Memory.write
  by_cases hv : v = Memory.unlisted
  · simpa only [hv, if_true] using ⟨hf, hfc⟩
  · simp only [hv, if_false]
    refine ⟨place_rising _ _ _ hf ?_, ?_⟩
    · intro c h; simpa using (List.mem_filter.mp h).2
    · intro c h
      rcases (mem_place _ _ _ c).mp h with rfl | h
      · exact ⟨hv, addr.isLt⟩
      · exact hfc c h

/-- Memory after reset has the canonical form. -/
theorem Memory.wf_reset : Memory.wf State.reset.mem := by decide

/-- A store keeps the canonical form. -/
theorem State.wf_write (s : State) (addr : Addr) (v : Byte) (h : Memory.wf s.mem) : Memory.wf (s.write addr v).mem :=
  Memory.wf_write s.mem addr v h

/-- A push keeps the canonical form. -/
theorem State.wf_push (s : State) (v : Byte) (h : Memory.wf s.mem) : Memory.wf (s.push v).mem :=
  Memory.wf_write s.mem (stackAddr s.sp) v h

/-- An address below every listed one reads as unlisted. -/
theorem Memory.lookup_below (m : Memory) (n : Nat) (h : ∀ c ∈ m, n < c.1) : Memory.lookup m n = Memory.unlisted := by
  induction m with
  | nil => rfl
  | cons c rest ih =>
    obtain ⟨k, b⟩ := c
    have hk := h (k, b) (by simp)
    simp only [Memory.lookup]
    rw [if_neg (by simp only at hk; omega)]
    exact ih fun c hc => h c (by simp [hc])

/-- The stack byte of a stack pointer lies in the stack page (10_state.md R38). -/
theorem stackAddr_toNat (sp : Byte) : (stackAddr sp).toNat = 256 + sp.toNat := by
  have := sp.isLt
  simp [stackAddr]; omega

end Sys2Proof.Machine
end

