-- ==== Sys2Proof/Laws/Flags.lean ====
section
/-! SUPPORT. What a flag write, a whole-byte write of P and the flag computations do, bit by bit. -/

namespace Sys2Proof.Machine

theorem flagIndex_lt (f : Flag) : flagIndex f < 8 := by cases f <;> decide

theorem flagIndex_ne_five (f : Flag) : flagIndex f ≠ 5 := by cases f <;> decide

theorem flagIndex_inj (f g : Flag) : flagIndex f = flagIndex g ↔ f = g := by cases f <;> cases g <;> decide

/-- A flag write sets its own bit and keeps every other (10_state.md R28). -/
theorem getLsbD_withFlag (p : Byte) (f : Flag) (b : Bool) (k : Nat) :
    (withFlag p f b).getLsbD k = if k = flagIndex f then b else p.getLsbD k := by
  by_cases hk : k < 8
  · revert hk k
    cases f <;> cases b <;> (intro k hk; interval_cases k <;> simp [withFlag, flagIndex])
  · have hf := flagIndex_lt f
    rw [BitVec.getLsbD_of_ge _ _ (by omega), BitVec.getLsbD_of_ge _ _ (by omega)]
    split_ifs <;> first | rfl | omega

@[simp] theorem setFlag_flag (s : State) (f g : Flag) (b : Bool) :
    (s.setFlag f b).flag g = if g = f then b else s.flag g := by
  simp only [State.flag, setFlag_p, getLsbD_withFlag, flagIndex_inj]

@[simp] theorem getLsbD_hardwired (v : Byte) (k : Nat) : (hardwired v).getLsbD k = (v.getLsbD k || decide (k = 5)) := by
  by_cases hk : k < 8
  · revert hk k; intro k hk; interval_cases k <;> simp [hardwired]
  · rw [BitVec.getLsbD_of_ge _ _ (by omega), BitVec.getLsbD_of_ge _ _ (by omega)]
    have : k ≠ 5 := by omega
    simp [this]

/-- Forcing bit 5 of a byte that already has it changes nothing (10_state.md R37). -/
theorem hardwired_eq_self (v : Byte) (h : v.getLsbD 5 = true) : hardwired v = v := by
  apply BitVec.eq_of_getLsbD_eq
  intro k _
  rw [getLsbD_hardwired]
  by_cases hk : k = 5
  · subst hk; simp [h]
  · simp [hk]

theorem zeroOf_eq_true (v : Byte) : zeroOf v = true ↔ v = 0 := by simp [zeroOf]

/-! ## The flag computations as arithmetic -/

/-- Bit 7 of a byte is its upper half of the range. -/
theorem getLsbD_seven (v : Byte) : v.getLsbD 7 = true ↔ 128 ≤ v.toNat := by
  have := v.isLt
  rw [BitVec.getLsbD, Nat.testBit_eq_decide_div_mod_eq]; simp; omega

/-- Bit 7 of a wide value, by its low byte. -/
theorem getLsbD_seven_wide (w : Wide) : w.getLsbD 7 = true ↔ 128 ≤ w.toNat % 256 := by
  rw [BitVec.getLsbD, Nat.testBit_eq_decide_div_mod_eq]; simp; omega

/-- The sum of R150 does not wrap on 16 bits. -/
theorem adcSum_toNat (a m : Byte) (c : Bool) : (adcSum a m c).toNat = a.toNat + m.toNat + c.toNat := by
  have := a.isLt; have := m.isLt
  cases c <;> simp [adcSum] <;> omega

/-- The sum after the low-digit correction (R150). -/
theorem adcSigned_toNat (dec : Bool) (a m : Byte) (c : Bool) :
    (adcSigned dec a m c).toNat =
      if dec = true ∧ 9 < a.toNat % 16 + m.toNat % 16 + c.toNat then a.toNat + m.toNat + c.toNat + 6
      else a.toNat + m.toNat + c.toNat := by
  have ha := a.isLt; have hm := m.isLt; have hc : c.toNat ≤ 1 := by cases c <;> simp
  have hs := adcSum_toNat a m c
  unfold adcSigned adcLowExceeds
  simp only [Bool.and_eq_true, decide_eq_true_eq, gt_iff_lt]
  split_ifs
  · rw [BitVec.toNat_add, hs]; simp; omega
  · exact hs

/-- The sum after both corrections (R150). -/
theorem adcFinal_toNat (dec : Bool) (a m : Byte) (c : Bool) :
    (adcFinal dec a m c).toNat =
      if dec = true ∧ 0x99 < (adcSigned dec a m c).toNat then (adcSigned dec a m c).toNat + 96
      else (adcSigned dec a m c).toNat := by
  have ha := a.isLt; have hm := m.isLt; have hc : c.toNat ≤ 1 := by cases c <;> simp
  have hs := adcSigned_toNat dec a m c
  have h99 : (0x99#16).toNat = 0x99 := rfl
  unfold adcFinal
  simp only [Bool.and_eq_true, decide_eq_true_eq, gt_iff_lt, BitVec.lt_def]
  rw [h99]
  split_ifs with h
  · rw [BitVec.toNat_add]; simp only [h.1, true_and] at *; split_ifs at hs <;> simp <;> omega
  · rfl

/-- Overflow: the operands have the same bit 7 and the sum the other (R154). -/
theorem overflowOf_iff (a m : Byte) (w : Wide) :
    overflowOf a m w = true ↔ (128 ≤ a.toNat ↔ 128 ≤ m.toNat) ∧ ¬(128 ≤ a.toNat ↔ 128 ≤ w.toNat % 256) := by
  rw [← getLsbD_seven, ← getLsbD_seven, ← getLsbD_seven_wide]
  have h : (a.setWidth 16).getLsbD 7 = a.getLsbD 7 := by simp
  simp only [overflowOf, BitVec.getLsbD_xor, h]
  cases a.getLsbD 7 <;> cases m.getLsbD 7 <;> cases w.getLsbD 7 <;> simp

/-- The byte ASL stores (R171). -/
theorem aslWide_low (m : Byte) : (aslWide m).setWidth 8 = BitVec.ofNat 8 (2 * m.toNat) := by
  have := m.isLt
  apply BitVec.eq_of_toNat_eq; simp [aslWide, Nat.shiftLeft_eq]; omega

/-- The bit ASL shifts out (R171). -/
theorem aslWide_carry (m : Byte) : (aslWide m).getLsbD 8 = true ↔ 128 ≤ m.toNat := by
  rw [← getLsbD_seven]; simp [aslWide, BitVec.getLsbD_shiftLeft, -BitVec.getLsbD_eq_getElem]

/-- The byte LSR stores (R172). -/
theorem lsrResult_eq (m : Byte) : lsrResult m = BitVec.ofNat 8 (m.toNat / 2) := by
  have := m.isLt
  apply BitVec.eq_of_toNat_eq; simp [lsrResult, Nat.shiftRight_eq_div_pow]; omega

/-- The bit LSR shifts out (R172). -/
theorem getLsbD_zero (m : Byte) : m.getLsbD 0 = true ↔ m.toNat % 2 = 1 := by
  rw [BitVec.getLsbD, Nat.testBit_eq_decide_div_mod_eq]; simp

end Sys2Proof.Machine
end

