-- ==== Sys2Proof/Laws/Operands.lean ====
section
/-! SUPPORT. What the operand selects can be, and what a write-back does. -/

namespace Sys2Proof.Machine

/-- A register select either names a register or is 5, 6 or 7 (30_encoding.md R100, R102). -/
theorem regOfSelect_cases (idx : BitVec 3) :
    (idx.toNat ≤ 4 ∧ ∃ r, regOfSelect idx = .ok r) ∨ (4 < idx.toNat ∧ regOfSelect idx = .error .invalidRegisterSelect) := by
  have h : ∀ n : BitVec 3, (n.toNat ≤ 4 ∧ ((regOfSelect n).toOption.isSome = true)) ∨
      (4 < n.toNat ∧ (match regOfSelect n with | .error c => decide (c = .invalidRegisterSelect) | .ok _ => false) = true) := by
    decide
  rcases h idx with ⟨h1, h2⟩ | ⟨h1, h2⟩
  · left; refine ⟨h1, ?_⟩
    cases hr : regOfSelect idx with
    | error c => simp [hr, Except.toOption] at h2
    | ok r => exact ⟨r, rfl⟩
  · right; refine ⟨h1, ?_⟩
    cases hr : regOfSelect idx with
    | error c => simp [hr] at h2; rw [h2]
    | ok r => simp [hr] at h2

/-- A flag index either names the flag at its own bit position or is 5 (30_encoding.md R101). -/
theorem flagOfIndex_cases (idx : BitVec 3) :
    (∃ f, flagOfIndex idx = .ok f ∧ flagIndex f = idx.toNat ∧ idx.toNat ≠ 5) ∨
      (idx.toNat = 5 ∧ flagOfIndex idx = .error .reservedFlagIndex) := by
  have h : ∀ n : BitVec 3, (match flagOfIndex n with
      | .ok f => decide (flagIndex f = n.toNat ∧ n.toNat ≠ 5)
      | .error c => decide (n.toNat = 5 ∧ c = .reservedFlagIndex)) = true := by decide
  have := h idx
  cases hf : flagOfIndex idx with
  | ok f => left; rw [hf] at this; exact ⟨f, rfl, by simpa using this⟩
  | error c => right; rw [hf] at this; simp at this; exact ⟨this.1, by rw [this.2]⟩

/-- A flag value is 0, 1 or a violation (30_encoding.md R102). -/
theorem flagValueOf_cases (data : Byte) :
    (data = 0 ∧ flagValueOf data = .ok false) ∨ (data = 1 ∧ flagValueOf data = .ok true) ∨
      (1 < data.toNat ∧ flagValueOf data = .error .flagValueOutOfRange) := by
  rcases hn : data.toNat with _ | _ | n
  · exact .inl ⟨BitVec.eq_of_toNat_eq (by simp [hn]), by simp [flagValueOf, hn]⟩
  · exact .inr (.inl ⟨BitVec.eq_of_toNat_eq (by simp [hn]), by simp [flagValueOf, hn]⟩)
  · exact .inr (.inr ⟨by omega, by simp [flagValueOf, hn]⟩)

/-- The write-back multiplexer writes the accumulator for the Accumulator tag (42_shift.md R170). -/
theorem writeBack_accumulator (s : State) (op : ResolvedOperand) (r : Byte) (h : op.mode = .accumulator) :
    s.writeBack op r = s.writeReg .accumulator r := by simp [State.writeBack, h]

/-- The write-back multiplexer stores at the effective address for every other tag (42_shift.md R170). -/
theorem writeBack_memory (s : State) (op : ResolvedOperand) (r : Byte) (h : op.mode ≠ .accumulator) :
    s.writeBack op r = s.write op.effectiveAddress r := by
  cases hm : op.mode <;> simp_all [State.writeBack]

/-- Which select names which register (30_encoding.md R100). -/
theorem regOfSelect_ok (idx : BitVec 3) (r : Reg) (h : regOfSelect idx = .ok r) :
    (idx = 0 ∧ r = .status) ∨ (idx = 1 ∧ r = .stack) ∨ (idx = 2 ∧ r = .accumulator) ∨ (idx = 3 ∧ r = .indexX) ∨
      (idx = 4 ∧ r = .indexY) := by
  obtain ⟨n, rfl⟩ : ∃ n, BitVec.ofFin n = idx := ⟨idx.toFin, rfl⟩
  fin_cases n <;> simp [regOfSelect] at h <;> subst h <;> decide

end Sys2Proof.Machine
end

