-- ==== Sys2Proof/Laws/PerInstr.lean ====
section
/-! SUPPORT. One fact per instruction: its encoded word lies in its own row of spec/opcode_table.json, that is, the word masked with the
row's mask is the row's match (30_encoding.md R108). The matches are copied from the table. -/

namespace Sys2Proof.Laws

/-- A command word masked as the rows of format CMD are: the unit code in bits 32:28. -/
theorem commandWord_masked (unit : BitVec 5) (op : ResolvedOperand) :
    commandWord unit op &&& 0x1F0000000#33 = unit.setWidth 33 <<< 28 := by
  apply BitVec.eq_of_getLsbD_eq
  intro k hk
  rw [BitVec.getLsbD_and, getLsbD_commandWord]
  interval_cases k <;> simp

/-- An access word masked as the rows of format ACC are: the operation code in bits 30:27. -/
theorem accessWord_masked (aop : BitVec 4) (f : AccessFields) :
    accessWord aop f &&& 0x78000000#31 = aop.setWidth 31 <<< 27 := by
  apply BitVec.eq_of_getLsbD_eq
  intro k hk
  rw [BitVec.getLsbD_and, getLsbD_accessWord]
  interval_cases k <;> simp

/-- A transaction is a command word in the row with this match. -/
def InCommandRow (t : Transaction) (m : CommandWord) : Prop := ∃ cw, t = .command cw ∧ cw &&& 0x1F0000000#33 = m

/-- A transaction is an access word in the row with this match. -/
def InAccessRow (t : Transaction) (m : AccessWord) : Prop := ∃ aw, t = .access aw ∧ aw &&& 0x78000000#31 = m

theorem inCommandRow (unit : BitVec 5) (op : ResolvedOperand) (m : CommandWord) (h : unit.setWidth 33 <<< 28 = m) :
    InCommandRow (.command (commandWord unit op)) m := ⟨_, rfl, (commandWord_masked unit op).trans h⟩

theorem inAccessRow (aop : BitVec 4) (f : AccessFields) (m : AccessWord) (h : aop.setWidth 31 <<< 27 = m) :
    InAccessRow (.access (accessWord aop f)) m := ⟨_, rfl, (accessWord_masked aop f).trans h⟩

/-- The instruction's word lies in its own row of the opcode table. -/
def OpcodeRow.Statement : Instr → Prop
  | .adc op => InCommandRow (encode (.adc op)) 0x000000000#33
  | .and op => InCommandRow (encode (.and op)) 0x010000000#33
  | .asl op => InCommandRow (encode (.asl op)) 0x020000000#33
  | .lsr op => InCommandRow (encode (.lsr op)) 0x030000000#33
  | .bcc op => InCommandRow (encode (.bcc op)) 0x040000000#33
  | .bcs op => InCommandRow (encode (.bcs op)) 0x050000000#33
  | .beq op => InCommandRow (encode (.beq op)) 0x060000000#33
  | .bne op => InCommandRow (encode (.bne op)) 0x070000000#33
  | .bmi op => InCommandRow (encode (.bmi op)) 0x080000000#33
  | .bpl op => InCommandRow (encode (.bpl op)) 0x090000000#33
  | .bvc op => InCommandRow (encode (.bvc op)) 0x0A0000000#33
  | .bvs op => InCommandRow (encode (.bvs op)) 0x0B0000000#33
  | .cmp op => InCommandRow (encode (.cmp op)) 0x0C0000000#33
  | .cpx op => InCommandRow (encode (.cpx op)) 0x0D0000000#33
  | .cpy op => InCommandRow (encode (.cpy op)) 0x0E0000000#33
  | .bit op => InCommandRow (encode (.bit op)) 0x0F0000000#33
  | .clc op => InCommandRow (encode (.clc op)) 0x100000000#33
  | .cld op => InCommandRow (encode (.cld op)) 0x110000000#33
  | .cli op => InCommandRow (encode (.cli op)) 0x120000000#33
  | .clv op => InCommandRow (encode (.clv op)) 0x130000000#33
  | .jmp op => InCommandRow (encode (.jmp op)) 0x140000000#33
  | .jsr op => InCommandRow (encode (.jsr op)) 0x150000000#33
  | .lda op => InCommandRow (encode (.lda op)) 0x160000000#33
  | .ldx op => InCommandRow (encode (.ldx op)) 0x170000000#33
  | .ldy op => InCommandRow (encode (.ldy op)) 0x180000000#33
  | .getb f => InAccessRow (encode (.getb f)) 0x00000000#31
  | .setb f => InAccessRow (encode (.setb f)) 0x08000000#31
  | .getf f => InAccessRow (encode (.getf f)) 0x10000000#31
  | .setf f => InAccessRow (encode (.setf f)) 0x18000000#31
  | .getpc f => InAccessRow (encode (.getpc f)) 0x20000000#31
  | .setpc f => InAccessRow (encode (.setpc f)) 0x28000000#31
  | .rd f => InAccessRow (encode (.rd f)) 0x30000000#31
  | .wr f => InAccessRow (encode (.wr f)) 0x38000000#31
  | .push f => InAccessRow (encode (.push f)) 0x40000000#31
  | .pop f => InAccessRow (encode (.pop f)) 0x48000000#31

theorem OpcodeRow.adc (op : ResolvedOperand) : OpcodeRow.Statement (.adc op) := inCommandRow _ op _ (by decide)
theorem OpcodeRow.and (op : ResolvedOperand) : OpcodeRow.Statement (.and op) := inCommandRow _ op _ (by decide)
theorem OpcodeRow.asl (op : ResolvedOperand) : OpcodeRow.Statement (.asl op) := inCommandRow _ op _ (by decide)
theorem OpcodeRow.lsr (op : ResolvedOperand) : OpcodeRow.Statement (.lsr op) := inCommandRow _ op _ (by decide)
theorem OpcodeRow.bcc (op : ResolvedOperand) : OpcodeRow.Statement (.bcc op) := inCommandRow _ op _ (by decide)
theorem OpcodeRow.bcs (op : ResolvedOperand) : OpcodeRow.Statement (.bcs op) := inCommandRow _ op _ (by decide)
theorem OpcodeRow.beq (op : ResolvedOperand) : OpcodeRow.Statement (.beq op) := inCommandRow _ op _ (by decide)
theorem OpcodeRow.bne (op : ResolvedOperand) : OpcodeRow.Statement (.bne op) := inCommandRow _ op _ (by decide)
theorem OpcodeRow.bmi (op : ResolvedOperand) : OpcodeRow.Statement (.bmi op) := inCommandRow _ op _ (by decide)
theorem OpcodeRow.bpl (op : ResolvedOperand) : OpcodeRow.Statement (.bpl op) := inCommandRow _ op _ (by decide)
theorem OpcodeRow.bvc (op : ResolvedOperand) : OpcodeRow.Statement (.bvc op) := inCommandRow _ op _ (by decide)
theorem OpcodeRow.bvs (op : ResolvedOperand) : OpcodeRow.Statement (.bvs op) := inCommandRow _ op _ (by decide)
theorem OpcodeRow.cmp (op : ResolvedOperand) : OpcodeRow.Statement (.cmp op) := inCommandRow _ op _ (by decide)
theorem OpcodeRow.cpx (op : ResolvedOperand) : OpcodeRow.Statement (.cpx op) := inCommandRow _ op _ (by decide)
theorem OpcodeRow.cpy (op : ResolvedOperand) : OpcodeRow.Statement (.cpy op) := inCommandRow _ op _ (by decide)
theorem OpcodeRow.bit (op : ResolvedOperand) : OpcodeRow.Statement (.bit op) := inCommandRow _ op _ (by decide)
theorem OpcodeRow.clc (op : ResolvedOperand) : OpcodeRow.Statement (.clc op) := inCommandRow _ op _ (by decide)
theorem OpcodeRow.cld (op : ResolvedOperand) : OpcodeRow.Statement (.cld op) := inCommandRow _ op _ (by decide)
theorem OpcodeRow.cli (op : ResolvedOperand) : OpcodeRow.Statement (.cli op) := inCommandRow _ op _ (by decide)
theorem OpcodeRow.clv (op : ResolvedOperand) : OpcodeRow.Statement (.clv op) := inCommandRow _ op _ (by decide)
theorem OpcodeRow.jmp (op : ResolvedOperand) : OpcodeRow.Statement (.jmp op) := inCommandRow _ op _ (by decide)
theorem OpcodeRow.jsr (op : ResolvedOperand) : OpcodeRow.Statement (.jsr op) := inCommandRow _ op _ (by decide)
theorem OpcodeRow.lda (op : ResolvedOperand) : OpcodeRow.Statement (.lda op) := inCommandRow _ op _ (by decide)
theorem OpcodeRow.ldx (op : ResolvedOperand) : OpcodeRow.Statement (.ldx op) := inCommandRow _ op _ (by decide)
theorem OpcodeRow.ldy (op : ResolvedOperand) : OpcodeRow.Statement (.ldy op) := inCommandRow _ op _ (by decide)
theorem OpcodeRow.getb (f : AccessFields) : OpcodeRow.Statement (.getb f) := inAccessRow _ f _ (by decide)
theorem OpcodeRow.setb (f : AccessFields) : OpcodeRow.Statement (.setb f) := inAccessRow _ f _ (by decide)
theorem OpcodeRow.getf (f : AccessFields) : OpcodeRow.Statement (.getf f) := inAccessRow _ f _ (by decide)
theorem OpcodeRow.setf (f : AccessFields) : OpcodeRow.Statement (.setf f) := inAccessRow _ f _ (by decide)
theorem OpcodeRow.getpc (f : AccessFields) : OpcodeRow.Statement (.getpc f) := inAccessRow _ f _ (by decide)
theorem OpcodeRow.setpc (f : AccessFields) : OpcodeRow.Statement (.setpc f) := inAccessRow _ f _ (by decide)
theorem OpcodeRow.rd (f : AccessFields) : OpcodeRow.Statement (.rd f) := inAccessRow _ f _ (by decide)
theorem OpcodeRow.wr (f : AccessFields) : OpcodeRow.Statement (.wr f) := inAccessRow _ f _ (by decide)
theorem OpcodeRow.push (f : AccessFields) : OpcodeRow.Statement (.push f) := inAccessRow _ f _ (by decide)
theorem OpcodeRow.pop (f : AccessFields) : OpcodeRow.Statement (.pop f) := inAccessRow _ f _ (by decide)

end Sys2Proof.Laws
end

