-- ==== Sys2Proof/Laws/Step.lean ====
section
/-! SUPPORT. What exec and step can do, said once: every instruction answers a next state, and a step is one of five things. -/

namespace Sys2Proof.Machine

/-- What a branch does to each field: only `pc` can change (43_branch.md R190). -/
@[simp] theorem branch_pc (s : State) (cond : Bool) (op : ResolvedOperand) :
    (s.branch cond op).pc = if cond then op.effectiveAddress else s.pc := by cases cond <;> rfl

/-- A branch is the state with `pc` chosen by the condition. -/
theorem branch_eq (s : State) (cond : Bool) (op : ResolvedOperand) :
    s.branch cond op = { s with pc := if cond then op.effectiveAddress else s.pc } := by cases cond <;> rfl

/-- GETB either returns a register or raises (40_access_port.md R130). -/
theorem execGetb_cases (f : AccessFields) (s : State) :
    (f.idx.toNat ≤ 4 ∧ ∃ r, regOfSelect f.idx = .ok r ∧ execGetb f s = .next (s.returning ((s.readReg r).setWidth 16))) ∨
      (4 < f.idx.toNat ∧ execGetb f s = .next (s.raise .invalidRegisterSelect)) := by
  rcases regOfSelect_cases f.idx with ⟨h, r, hr⟩ | ⟨h, hr⟩
  · exact .inl ⟨h, r, hr, by simp [execGetb, hr]⟩
  · exact .inr ⟨h, by simp [execGetb, hr]⟩

/-- SETB either writes a register or raises (R131). -/
theorem execSetb_cases (f : AccessFields) (s : State) :
    (f.idx.toNat ≤ 4 ∧ ∃ r, regOfSelect f.idx = .ok r ∧ execSetb f s = .next (s.writeReg r f.data)) ∨
      (4 < f.idx.toNat ∧ execSetb f s = .next (s.raise .invalidRegisterSelect)) := by
  rcases regOfSelect_cases f.idx with ⟨h, r, hr⟩ | ⟨h, hr⟩
  · exact .inl ⟨h, r, hr, by simp [execSetb, hr]⟩
  · exact .inr ⟨h, by simp [execSetb, hr]⟩

/-- GETF either returns a flag or raises (R132). -/
theorem execGetf_cases (f : AccessFields) (s : State) :
    (f.idx.toNat ≠ 5 ∧ ∃ fl, flagIndex fl = f.idx.toNat ∧
        execGetf f s = .next (s.returning ((BitVec.ofBool (s.flag fl)).setWidth 16))) ∨
      (f.idx.toNat = 5 ∧ execGetf f s = .next (s.raise .reservedFlagIndex)) := by
  rcases flagOfIndex_cases f.idx with ⟨fl, hf, hi, h⟩ | ⟨h, hf⟩
  · exact .inl ⟨h, fl, hi, by simp [execGetf, hf]⟩
  · exact .inr ⟨h, by simp [execGetf, hf]⟩

/-- SETF writes a flag, or raises for the index, or raises for the value (R133). -/
theorem execSetf_cases (f : AccessFields) (s : State) :
    (f.idx.toNat ≠ 5 ∧ ∃ fl b, flagIndex fl = f.idx.toNat ∧ f.data = (BitVec.ofBool b).setWidth 8 ∧
        execSetf f s = .next (s.setFlag fl b)) ∨
      (f.idx.toNat ≠ 5 ∧ 1 < f.data.toNat ∧ execSetf f s = .next (s.raise .flagValueOutOfRange)) ∨
      (f.idx.toNat = 5 ∧ execSetf f s = .next (s.raise .reservedFlagIndex)) := by
  rcases flagOfIndex_cases f.idx with ⟨fl, hf, hi, h⟩ | ⟨h, hf⟩
  · rcases flagValueOf_cases f.data with ⟨hd, hv⟩ | ⟨hd, hv⟩ | ⟨hd, hv⟩
    · exact .inl ⟨h, fl, false, hi, by rw [hd]; rfl, by simp [execSetf, hf, hv]⟩
    · exact .inl ⟨h, fl, true, hi, by rw [hd]; rfl, by simp [execSetf, hf, hv]⟩
    · exact .inr (.inl ⟨h, hd, by simp [execSetf, hf, hv]⟩)
  · exact .inr (.inr ⟨h, by simp [execSetf, hf]⟩)

/-- Every instruction answers a next state, in every state (00_scope.md R9). -/
theorem exec_next (i : Instr) (s : State) : ∃ t, exec i s = .next t := by
  cases i with
  | getb f => rcases execGetb_cases f s with ⟨_, r, _, h⟩ | ⟨_, h⟩ <;> exact ⟨_, h⟩
  | setb f => rcases execSetb_cases f s with ⟨_, r, _, h⟩ | ⟨_, h⟩ <;> exact ⟨_, h⟩
  | getf f => rcases execGetf_cases f s with ⟨_, fl, _, h⟩ | ⟨_, h⟩ <;> exact ⟨_, h⟩
  | setf f => rcases execSetf_cases f s with ⟨_, fl, b, _, _, h⟩ | ⟨_, _, h⟩ | ⟨_, h⟩ <;> exact ⟨_, h⟩
  | _ => exact ⟨_, rfl⟩

/-- What a step that answers a next state did: nothing was issued; or a reset; or a word ignored while halted; or a word that does
not decode, whose violation was taken; or an instruction was run. -/
theorem step_cases (s t : State) (h : step s = .next t) :
    (s.pending = [] ∧ t = s) ∨
      (∃ rest, s.pending = .reset :: rest ∧ t = State.afterReset rest) ∨
      (∃ w rest, s.pending = w :: rest ∧ w ≠ .reset ∧ s.halted = true ∧ t = s.accept rest) ∨
      (∃ w rest c, s.pending = w :: rest ∧ s.halted = false ∧ decodeTransaction w = some (.error c) ∧
        t = (s.accept rest).raise c) ∨
      (∃ w rest i, s.pending = w :: rest ∧ s.halted = false ∧ decodeTransaction w = some (.ok i) ∧
        exec i (s.accept rest) = .next t) := by
  cases hp : s.pending with
  | nil => left; simp [step, issued, hp] at h; exact ⟨rfl, h.symm⟩
  | cons w rest =>
    right
    cases hh : s.halted with
    | true =>
      cases w with
      | reset => left; simp [step, issued, hp] at h; exact ⟨rest, rfl, h.symm⟩
      | command cw => right; left; simp [step, issued, hp, offered, hh] at h; exact ⟨_, _, rfl, by simp, rfl, h.symm⟩
      | access aw => right; left; simp [step, issued, hp, offered, hh] at h; exact ⟨_, _, rfl, by simp, rfl, h.symm⟩
    | false =>
      cases w with
      | reset => left; simp [step, issued, hp] at h; exact ⟨rest, rfl, h.symm⟩
      | command cw =>
        right; right
        cases hd : decodeCommand cw with
        | error c => left; simp [step, issued, hp, offered, hh, hd] at h
                     exact ⟨_, _, c, rfl, rfl, by simp [decodeTransaction, hd], h.symm⟩
        | ok i => right; simp [step, issued, hp, offered, hh, hd] at h
                  exact ⟨_, _, i, rfl, rfl, by simp [decodeTransaction, hd], h⟩
      | access aw =>
        right; right
        cases hd : decodeAccess aw with
        | error c => left; simp [step, issued, hp, offered, hh, hd] at h
                     exact ⟨_, _, c, rfl, rfl, by simp [decodeTransaction, hd], h.symm⟩
        | ok i => right; simp [step, issued, hp, offered, hh, hd] at h
                  exact ⟨_, _, i, rfl, rfl, by simp [decodeTransaction, hd], h⟩

/-- ASL's next state, by where it writes (42_shift.md R170, R171). -/
theorem execAsl_cases (op : ResolvedOperand) (s t : State) (h : execAsl op s = .next t) :
    (op.mode = .accumulator ∧ t = ((s.setFlag .carry ((aslWide op.operandValue).getLsbD 8)).setSignZero
        ((aslWide op.operandValue).setWidth 8)).writeReg .accumulator ((aslWide op.operandValue).setWidth 8)) ∨
      (op.mode ≠ .accumulator ∧ t = ((s.setFlag .carry ((aslWide op.operandValue).getLsbD 8)).setSignZero
        ((aslWide op.operandValue).setWidth 8)).write op.effectiveAddress ((aslWide op.operandValue).setWidth 8)) := by
  cases h
  by_cases hm : op.mode = .accumulator
  · exact .inl ⟨hm, writeBack_accumulator _ _ _ hm⟩
  · exact .inr ⟨hm, writeBack_memory _ _ _ hm⟩

/-- LSR's next state, by where it writes (42_shift.md R170, R172). -/
theorem execLsr_cases (op : ResolvedOperand) (s t : State) (h : execLsr op s = .next t) :
    (op.mode = .accumulator ∧ t = ((s.setFlag .carry (op.operandValue.getLsbD 0)).setSignZero
        (lsrResult op.operandValue)).writeReg .accumulator (lsrResult op.operandValue)) ∨
      (op.mode ≠ .accumulator ∧ t = ((s.setFlag .carry (op.operandValue.getLsbD 0)).setSignZero
        (lsrResult op.operandValue)).write op.effectiveAddress (lsrResult op.operandValue)) := by
  cases h
  by_cases hm : op.mode = .accumulator
  · exact .inl ⟨hm, writeBack_accumulator _ _ _ hm⟩
  · exact .inr ⟨hm, writeBack_memory _ _ _ hm⟩

/-- No instruction issues or withdraws a transaction. -/
theorem exec_pending (i : Instr) (s t : State) (h : exec i s = .next t) : t.pending = s.pending := by
  cases i with
  | getb f => rcases execGetb_cases f s with ⟨_, r, _, e⟩ | ⟨_, e⟩ <;> (rw [exec, e] at h; cases h; simp)
  | setb f => rcases execSetb_cases f s with ⟨_, r, _, e⟩ | ⟨_, e⟩ <;> (rw [exec, e] at h; cases h; simp)
  | getf f => rcases execGetf_cases f s with ⟨_, fl, _, e⟩ | ⟨_, e⟩ <;> (rw [exec, e] at h; cases h; simp)
  | setf f => rcases execSetf_cases f s with ⟨_, fl, b, _, _, e⟩ | ⟨_, _, e⟩ | ⟨_, e⟩ <;> (rw [exec, e] at h; cases h; simp)
  | asl op => rcases execAsl_cases op s t h with ⟨_, rfl⟩ | ⟨_, rfl⟩ <;> simp
  | lsr op => rcases execLsr_cases op s t h with ⟨_, rfl⟩ | ⟨_, rfl⟩ <;> simp
  | _ => cases h; simp [branch_eq, State.load]

/-- One step of a run. -/
theorem run_succ (k : Nat) (s t : State) (h : step s = .next t) : core.run (k + 1) s = core.run k t := by
  have hc : core.step s = .next t := h
  simp only [Host.Core.run, hc]

end Sys2Proof.Machine
end

