-- ==== Sys2Proof/Tests/Slice0.lean ====
section
/-! SUPPORT. Tests of the model: well-formedness, decoding, one step at a time, and a witness for the hypotheses of each obligation.
Unless a comment says otherwise the expected results are copied from 95_test_vectors.md or from the examples of the rule files. -/

namespace Sys2Proof.Tests

open Sys2Proof Sys2Proof.Machine Sys2Proof.Claims

/-! ## Small helpers -/

/-- The reset state with A and P given. -/
def withAP (a p : Byte) : State := { State.reset with a := a, p := p }

/-- The state in which every 8-bit register holds a value of its own (section 2.10). -/
def loaded (p : Byte) : State := { State.reset with a := 0x11#8, x := 0x22#8, y := 0x33#8, p := p }

/-- The next state of a step, if there is one. -/
def stateOf : Host.Outcome State Fault Refusal → Option State
  | .next t => some t
  | .fault _ => none
  | .refused _ => none

/-- The state after a command. -/
def command (cw : CommandWord) (s : State) : Option State := stateOf (step { s with pending := [.command cw] })

/-- The state after an access. -/
def access (aw : AccessWord) (s : State) : Option State := stateOf (step { s with pending := [.access aw] })

/-- A and P after a command. -/
def apAfter (cw : CommandWord) (s : State) : Option (Byte × Byte) := (command cw s).map fun t => (t.a, t.p)

/-- `pc` and P after a command. -/
def pcAfter (cw : CommandWord) (s : State) : Option (Addr × Byte) := (command cw s).map fun t => (t.pc, t.p)

/-- What an access returns. -/
def rdataAfter (aw : AccessWord) (s : State) : Option (Option Wide) := (access aw s).map fun t => t.rdata

/-- The latch and its cause after an access. -/
def causeAfter (aw : AccessWord) (s : State) : Option (Bool × BitVec 3) := (access aw s).map fun t => (t.halted, t.haltCause)

/-! ## Well-formedness: each check refuses an ill-formed term -/

theorem test_getb_select_5_is_ill_formed : (Instr.getb ⟨5#3, 0x00#8, 0x0000#16⟩).wellFormed = false := by decide
theorem test_setb_select_7_is_ill_formed : (Instr.setb ⟨7#3, 0xFF#8, 0x0000#16⟩).wellFormed = false := by decide
theorem test_getf_index_5_is_ill_formed : (Instr.getf ⟨5#3, 0x00#8, 0x0000#16⟩).wellFormed = false := by decide
theorem test_setf_index_5_is_ill_formed : (Instr.setf ⟨5#3, 0x01#8, 0x0000#16⟩).wellFormed = false := by decide
theorem test_setf_value_2_is_ill_formed : (Instr.setf ⟨0#3, 0x02#8, 0x0000#16⟩).wellFormed = false := by decide
theorem test_last_select_index_and_value_are_well_formed :
    (Instr.getb ⟨4#3, 0x00#8, 0x0000#16⟩).wellFormed = true ∧ (Instr.setf ⟨7#3, 0x01#8, 0x0000#16⟩).wellFormed = true := by decide

/-! ## Decoding: a word of the spec for every instruction -/

theorem test_decode_arith_logic :
    decodeCommand 0x000500000#33 = .ok (.adc ⟨.immediate, 0x50#8, 0x0000#16⟩) ∧
    decodeCommand 0x0100F0000#33 = .ok (.and ⟨.immediate, 0x0F#8, 0x0000#16⟩) := ⟨rfl, rfl⟩

theorem test_decode_shift :
    decodeCommand 0x02340FFFF#33 = .ok (.asl ⟨.implied, 0x40#8, 0xFFFF#16⟩) ∧
    decodeCommand 0x031031234#33 = .ok (.lsr ⟨.absolute, 0x03#8, 0x1234#16⟩) := ⟨rfl, rfl⟩

theorem test_decode_branch :
    decodeCommand 0x04A000300#33 = .ok (.bcc ⟨.relative, 0x00#8, 0x0300#16⟩) ∧
    decodeCommand 0x05A000300#33 = .ok (.bcs ⟨.relative, 0x00#8, 0x0300#16⟩) ∧
    decodeCommand 0x060000300#33 = .ok (.beq ⟨.immediate, 0x00#8, 0x0300#16⟩) ∧
    decodeCommand 0x07AFE0300#33 = .ok (.bne ⟨.relative, 0xFE#8, 0x0300#16⟩) ∧
    decodeCommand 0x08A000300#33 = .ok (.bmi ⟨.relative, 0x00#8, 0x0300#16⟩) ∧
    decodeCommand 0x09A000300#33 = .ok (.bpl ⟨.relative, 0x00#8, 0x0300#16⟩) ∧
    decodeCommand 0x0AA000300#33 = .ok (.bvc ⟨.relative, 0x00#8, 0x0300#16⟩) ∧
    decodeCommand 0x0BA000300#33 = .ok (.bvs ⟨.relative, 0x00#8, 0x0300#16⟩) := ⟨rfl, rfl, rfl, rfl, rfl, rfl, rfl, rfl⟩

theorem test_decode_compare_bit :
    decodeCommand 0x0C1100040#33 = .ok (.cmp ⟨.absolute, 0x10#8, 0x0040#16⟩) ∧
    decodeCommand 0x0D0200000#33 = .ok (.cpx ⟨.immediate, 0x20#8, 0x0000#16⟩) ∧
    decodeCommand 0x0E07F0000#33 = .ok (.cpy ⟨.immediate, 0x7F#8, 0x0000#16⟩) ∧
    decodeCommand 0x0F2C00011#33 = .ok (.bit ⟨.zeroPageAbsolute, 0xC0#8, 0x0011#16⟩) := ⟨rfl, rfl, rfl, rfl⟩

theorem test_decode_flag_clear :
    decodeCommand 0x103000000#33 = .ok (.clc ⟨.implied, 0x00#8, 0x0000#16⟩) ∧
    decodeCommand 0x113000000#33 = .ok (.cld ⟨.implied, 0x00#8, 0x0000#16⟩) ∧
    decodeCommand 0x123000000#33 = .ok (.cli ⟨.implied, 0x00#8, 0x0000#16⟩) ∧
    decodeCommand 0x133000000#33 = .ok (.clv ⟨.implied, 0x00#8, 0x0000#16⟩) := ⟨rfl, rfl, rfl, rfl⟩

theorem test_decode_jump :
    decodeCommand 0x14799FFFE#33 = .ok (.jmp ⟨.indirect, 0x99#8, 0xFFFE#16⟩) ∧
    decodeCommand 0x151000410#33 = .ok (.jsr ⟨.absolute, 0x00#8, 0x0410#16⟩) := ⟨rfl, rfl⟩

theorem test_decode_load :
    decodeCommand 0x161801234#33 = .ok (.lda ⟨.absolute, 0x80#8, 0x1234#16⟩) ∧
    decodeCommand 0x1707F0000#33 = .ok (.ldx ⟨.immediate, 0x7F#8, 0x0000#16⟩) ∧
    decodeCommand 0x180FF0000#33 = .ok (.ldy ⟨.immediate, 0xFF#8, 0x0000#16⟩) := ⟨rfl, rfl, rfl⟩

theorem test_decode_access :
    decodeAccess 0x02FFFFFF#31 = .ok (.getb ⟨2#3, 0xFF#8, 0xFFFF#16⟩) ∧
    decodeAccess 0x0B7E0000#31 = .ok (.setb ⟨3#3, 0x7E#8, 0x0000#16⟩) ∧
    decodeAccess 0x13000000#31 = .ok (.getf ⟨3#3, 0x00#8, 0x0000#16⟩) ∧
    decodeAccess 0x1B010000#31 = .ok (.setf ⟨3#3, 0x01#8, 0x0000#16⟩) ∧
    decodeAccess 0x20000000#31 = .ok (.getpc ⟨0#3, 0x00#8, 0x0000#16⟩) ∧
    decodeAccess 0x28001234#31 = .ok (.setpc ⟨0#3, 0x00#8, 0x1234#16⟩) ∧
    decodeAccess 0x3000FFFF#31 = .ok (.rd ⟨0#3, 0x00#8, 0xFFFF#16⟩) ∧
    decodeAccess 0x38A5FFFF#31 = .ok (.wr ⟨0#3, 0xA5#8, 0xFFFF#16⟩) ∧
    decodeAccess 0x40110000#31 = .ok (.push ⟨0#3, 0x11#8, 0x0000#16⟩) ∧
    decodeAccess 0x48000000#31 = .ok (.pop ⟨0#3, 0x00#8, 0x0000#16⟩) := ⟨rfl, rfl, rfl, rfl, rfl, rfl, rfl, rfl, rfl, rfl⟩

/-- A word written bit by bit from 30_encoding.md R91: unit 00010, mode 0010, value 10000001, address 0000000000010000. -/
theorem test_decode_bit_by_bit :
    decodeCommand 0b000100010100000010000000000010000#33 = .ok (.asl ⟨.zeroPageAbsolute, 0x81#8, 0x0010#16⟩) := rfl

/-- The illegal words of section 3.2: unit before mode, then mode, then the access operation. -/
theorem test_decode_illegal :
    decodeCommand 0x190000000#33 = .error .invalidUnitSelect ∧ decodeCommand 0x1FFFFFFFF#33 = .error .invalidUnitSelect ∧
    decodeCommand 0x16B550000#33 = .error .invalidModeTag ∧
    decodeAccess 0x55020000#31 = .error .invalidAccessOp ∧ decodeAccess 0x78000000#31 = .error .invalidAccessOp :=
  ⟨rfl, rfl, rfl, rfl, rfl⟩

/-- The opcode table's match of POP and of LDY, at the widths the table gives, and a word wider than its port. -/
theorem test_decode_table_word :
    decodeTableWord 32 0x48000000 = some (.pop ⟨0#3, 0x00#8, 0x0000#16⟩) ∧
    decodeTableWord 40 0x180000000 = some (.ldy ⟨.immediate, 0x00#8, 0x0000#16⟩) ∧
    decodeTableWord 40 0x190000000 = none ∧ decodeTableWord 32 0x80000000 = none := by decide

theorem test_fetch_word_runs_first_after_reset :
    (stateOf (step (State.reset.withFetchWord 40 0x160800000))).map (fun t => (t.a, t.p, t.pending)) = some (0x80#8, 0xA0#8, []) := by
  decide

/-! ## ADC and AND (sections 1.2, 2.1 to 2.3) -/

theorem test_adc_signed_overflow_both_ways :
    apAfter 0x000500000#33 (withAP 0x50#8 0x20#8) = some (0xA0#8, 0xE0#8) ∧
    apAfter 0x000800000#33 (withAP 0x80#8 0x20#8) = some (0x00#8, 0x63#8) := by decide

theorem test_adc_decimal_flags_of_the_middle_sum :
    apAfter 0x000000000#33 (withAP 0x79#8 0x29#8) = some (0x80#8, 0xE8#8) ∧
    apAfter 0x000FF0000#33 (withAP 0xFF#8 0x29#8) = some (0x65#8, 0x69#8) := by decide

theorem test_and_keeps_overflow_and_carry :
    apAfter 0x010550000#33 (withAP 0xAA#8 0xE3#8) = some (0x00#8, 0x63#8) := by decide

/-! ## ASL and LSR (section 2.4) -/

theorem test_asl_accumulator_shifts_the_operand_not_a :
    apAfter 0x024C00000#33 (withAP 0x33#8 0x20#8) = some (0x80#8, 0xA1#8) := by decide

theorem test_asl_implied_writes_the_top_address :
    (command 0x02340FFFF#33 (withAP 0x77#8 0x20#8)).map (fun t => (t.a, t.p, t.mem)) = some (0x77#8, 0xA0#8, [(0xFFFF, 0x80#8)]) := by
  decide

theorem test_lsr_clears_sign : apAfter 0x034000000#33 (withAP 0x00#8 0xA1#8) = some (0x00#8, 0x22#8) := by decide

theorem test_lsr_absolute_writes_memory :
    (command 0x031031234#33 (withAP 0x77#8 0x20#8)).map (fun t => (t.a, t.p, t.mem)) = some (0x77#8, 0x21#8, [(0x1234, 0x01#8)]) := by
  decide

/-! ## The branches (section 2.5): `pc` is 0202 before, P has one flag set -/

/-- The state before a branch. -/
def beforeBranch (p : Byte) : State := { State.reset with pc := 0x0202#16, p := p }

theorem test_bcc_and_bcs_test_carry :
    pcAfter 0x04A000300#33 (beforeBranch 0x21#8) = some (0x0202#16, 0x21#8) ∧
    pcAfter 0x05A000300#33 (beforeBranch 0x21#8) = some (0x0300#16, 0x21#8) ∧
    pcAfter 0x04A000300#33 (beforeBranch 0x20#8) = some (0x0300#16, 0x20#8) := by decide

theorem test_bne_and_beq_test_zero :
    pcAfter 0x07A000300#33 (beforeBranch 0x22#8) = some (0x0202#16, 0x22#8) ∧
    pcAfter 0x06A000300#33 (beforeBranch 0x22#8) = some (0x0300#16, 0x22#8) ∧
    pcAfter 0x07AFE0300#33 (beforeBranch 0x20#8) = some (0x0300#16, 0x20#8) := by decide

theorem test_bpl_and_bmi_test_sign :
    pcAfter 0x09A000300#33 (beforeBranch 0xA0#8) = some (0x0202#16, 0xA0#8) ∧
    pcAfter 0x08A000300#33 (beforeBranch 0xA0#8) = some (0x0300#16, 0xA0#8) ∧
    pcAfter 0x09A000300#33 (beforeBranch 0x20#8) = some (0x0300#16, 0x20#8) := by decide

theorem test_bvc_and_bvs_test_overflow :
    pcAfter 0x0AA000300#33 (beforeBranch 0x60#8) = some (0x0202#16, 0x60#8) ∧
    pcAfter 0x0BA000300#33 (beforeBranch 0x60#8) = some (0x0300#16, 0x60#8) ∧
    pcAfter 0x0AA000300#33 (beforeBranch 0x20#8) = some (0x0300#16, 0x20#8) := by decide

/-! ## CMP, CPX, CPY and BIT (sections 2.6 and 2.7) -/

theorem test_cmp_borrow_and_kept_overflow :
    apAfter 0x0C0200000#33 (withAP 0x10#8 0x20#8) = some (0x10#8, 0xA0#8) ∧
    apAfter 0x0C0000000#33 (withAP 0x80#8 0xE3#8) = some (0x80#8, 0xE1#8) := by decide

/-- The operand is the value sent, not the byte in memory (section 2.6, the telling vector of D9). -/
theorem test_cmp_absolute_reads_no_memory :
    apAfter 0x0C1100040#33 { withAP 0x10#8 0x20#8 with mem := [(0x0040, 0x20#8)] } = some (0x10#8, 0x23#8) := by decide

theorem test_cpx_compares_x :
    (command 0x0D0100000#33 { State.reset with x := 0x20#8 }).map (fun t => (t.x, t.p)) = some (0x20#8, 0x21#8) := by decide

theorem test_cpy_compares_y :
    (command 0x0E0800000#33 { State.reset with y := 0x7F#8 }).map (fun t => (t.y, t.p)) = some (0x7F#8, 0xA0#8) := by decide

theorem test_bit_flags_from_the_value :
    apAfter 0x0F2C00011#33 (withAP 0x0F#8 0x20#8) = some (0x0F#8, 0xE2#8) ∧
    apAfter 0x0F2010011#33 (withAP 0x01#8 0xE2#8) = some (0x01#8, 0x20#8) := by decide

/-! ## The flag clears (section 2.8) -/

theorem test_clears_from_all_ones :
    apAfter 0x103000000#33 (withAP 0x00#8 0xFF#8) = some (0x00#8, 0xFE#8) ∧
    apAfter 0x113000000#33 (withAP 0x00#8 0xFF#8) = some (0x00#8, 0xF7#8) ∧
    apAfter 0x123000000#33 (withAP 0x00#8 0xFF#8) = some (0x00#8, 0xFB#8) ∧
    apAfter 0x133000000#33 (withAP 0x00#8 0xFF#8) = some (0x00#8, 0xBF#8) := by decide

/-! ## JMP and JSR (section 2.9) -/

theorem test_jmp_indirect_follows_no_pointer :
    pcAfter 0x14799FFFE#33 { State.reset with pc := 0x0203#16, p := 0xE3#8 } = some (0xFFFE#16, 0xE3#8) := by decide

theorem test_jsr_from_the_reset_stack_pointer :
    (command 0x151000410#33 { State.reset with pc := 0x0403#16 }).map (fun t => (t.pc, t.sp, t.mem)) =
      some (0x0410#16, 0xFE#8, [(0x0100, 0x04#8), (0x01FF, 0x02#8)]) := by decide

theorem test_jsr_wraps_pc_and_stack :
    (command 0x15100FFFF#33 { State.reset with sp := 0x01#8 }).map (fun t => (t.pc, t.sp, t.mem)) =
      some (0xFFFF#16, 0xFF#8, [(0x0100, 0xFF#8), (0x0101, 0xFF#8)]) := by decide

/-! ## The loads (section 2.10) -/

theorem test_lda_loads_a :
    (command 0x1607F0000#33 (loaded 0xE3#8)).map (fun t => (t.a, t.x, t.y, t.p)) = some (0x7F#8, 0x22#8, 0x33#8, 0x61#8) := by decide

theorem test_ldx_loads_x :
    (command 0x170000000#33 (loaded 0x20#8)).map (fun t => (t.a, t.x, t.y, t.p)) = some (0x11#8, 0x00#8, 0x33#8, 0x22#8) := by decide

theorem test_ldy_loads_y :
    (command 0x180FF0000#33 (loaded 0x22#8)).map (fun t => (t.a, t.x, t.y, t.p)) = some (0x11#8, 0x22#8, 0xFF#8, 0xA0#8) := by decide

/-! ## The access port (sections 1.1 and 3.1) -/

theorem test_getb_accumulator_with_dont_care_fields : rdataAfter 0x02FFFFFF#31 (withAP 0x5A#8 0x20#8) = some (some 0x005A#16) := by
  decide

theorem test_getb_status_after_reset : rdataAfter 0x00000000#31 State.reset = some (some 0x0020#16) := by decide

theorem test_setb_status_keeps_bit_5 : (access 0x08C30000#31 State.reset).map (fun t => t.p) = some 0xE3#8 := by decide

theorem test_setb_index_x : (access 0x0B7E0000#31 State.reset).map (fun t => (t.sp, t.a, t.x, t.y)) = some (0x00#8, 0x00#8, 0x7E#8, 0x00#8) := by
  decide

theorem test_getf_sign_and_zero :
    rdataAfter 0x17000000#31 (withAP 0x00#8 0xA1#8) = some (some 0x0001#16) ∧
    rdataAfter 0x11000000#31 (withAP 0x00#8 0xA1#8) = some (some 0x0000#16) := by decide

theorem test_setf_decimal_then_sign_cleared :
    (access 0x1B010000#31 State.reset).map (fun t => t.p) = some 0x28#8 ∧
    (access 0x1F000000#31 (withAP 0x00#8 0xFF#8)).map (fun t => t.p) = some 0x7F#8 := by decide

theorem test_setpc_and_getpc :
    (access 0x28001234#31 State.reset).map (fun t => t.pc) = some 0x1234#16 ∧
    rdataAfter 0x20000000#31 { State.reset with pc := 0x1234#16 } = some (some 0x1234#16) := by decide

theorem test_wr_top_address_and_rd :
    (access 0x38A5FFFF#31 State.reset).map (fun t => t.mem) = some [(0xFFFF, 0xA5#8)] ∧
    rdataAfter 0x3000FFFF#31 { State.reset with mem := [(0xFFFF, 0xA5#8)] } = some (some 0x00A5#16) ∧
    rdataAfter 0x30000000#31 { State.reset with mem := [(0xFFFF, 0xA5#8)] } = some (some 0x0000#16) := by decide

/-- Writing what an unlisted address reads as removes the cell (log 10; the expected list is the model's canonical form). -/
theorem test_wr_zero_removes_the_cell :
    (access 0x3800FFFF#31 { State.reset with mem := [(0x0010, 0x01#8), (0xFFFF, 0xA5#8)] }).map (fun t => t.mem) =
      some [(0x0010, 0x01#8)] := by decide

theorem test_push_wraps_the_stack_pointer :
    (access 0x40110000#31 State.reset).map (fun t => (t.sp, t.mem)) = some (0xFF#8, [(0x0100, 0x11#8)]) := by decide

theorem test_pop_wraps_the_stack_pointer :
    (access 0x48000000#31 { State.reset with sp := 0xFF#8, mem := [(0x0100, 0x11#8)] }).map (fun t => (t.sp, t.rdata)) =
      some (0x00#8, some 0x0011#16) := by decide

/-! ## Violations, halt and reset (sections 3.2 and 3.3) -/

theorem test_violation_causes :
    causeAfter 0x15000000#31 State.reset = some (true, 1#3) ∧ causeAfter 0x18020000#31 State.reset = some (true, 2#3) ∧
    causeAfter 0x1D020000#31 State.reset = some (true, 1#3) ∧ causeAfter 0x05000000#31 State.reset = some (true, 3#3) ∧
    causeAfter 0x0FFF0000#31 State.reset = some (true, 3#3) ∧ causeAfter 0x55020000#31 State.reset = some (true, 6#3) := by decide

theorem test_illegal_mode_runs_nothing :
    (command 0x16B550000#33 (withAP 0x11#8 0x20#8)).map (fun t => (t.a, t.p, t.halted, t.haltCause)) =
      some (0x11#8, 0x20#8, true, 5#3) := by decide

/-- A block halted with cause 4. -/
def haltedState : State := { State.reset with pc := 0x1234#16, p := 0xFF#8, a := 0x11#8, mem := [(0xFFFF, 0xA5#8)], halted := true, haltCause := 4#3 }

theorem test_halted_block_ignores_words :
    command 0x160000000#33 haltedState = some haltedState ∧ access 0x02000000#31 haltedState = some haltedState ∧
    access 0x15000000#31 haltedState = some haltedState := by decide

theorem test_reset_transaction : stateOf (step { haltedState with pending := [.reset] }) = some State.reset := by decide

theorem test_checked_step_reports_the_cause :
    checkedStep { State.reset with pending := [.command 0x1A0990000#33] } = .fault (.preconditionViolation 4#3) := rfl

/-! ## The reference harness (section 4.3, step 1; the tag RH refuses) -/

theorem test_harness_resolves_a_zero_page_operand :
    (harnessCommand 0x0300#16 ⟨2#5, .zeroPageAbsolute, 0x0010#16, 2⟩
        { State.reset with pc := 0x0300#16, mem := [(0x0010, 0x81#8), (0x0011, 0xC0#8)] }).map (fun t => (t.pc, t.p, t.mem)) =
      some (0x0302#16, 0x21#8, [(0x0010, 0x02#8), (0x0011, 0xC0#8)]) := by decide

theorem test_harness_refuses_an_indexed_tag :
    harnessRun [(0x0000#16, ⟨0#5, .indexed, 0x0000#16, 3⟩)] 1 State.reset = .refusedTag .indexed := by decide

/-! ## Witnesses: each obligation with hypotheses has a concrete case that meets them -/

/-- A don't-care operand. -/
def op0 (m : Mode) : ResolvedOperand := ⟨m, 0x81#8, 0x0110#16⟩

/-- Access fields with a given select. -/
def fields (idx : BitVec 3) (data : Byte) : AccessFields := ⟨idx, data, 0x0010#16⟩

/-- A state whose next transaction is given, with one more behind it. -/
def about (w : Transaction) : State := { loaded 0x29#8 with pending := [w, .reset] }

theorem witness_EncodeGivesBackEveryDecodedWord :
    decodeTransaction (.command 0x000500000#33) = some (.ok (.adc ⟨.immediate, 0x50#8, 0x0000#16⟩)) := rfl

/-- The three clauses at units 24, 25 and 31 and at modes 10, 11 and 15. -/
theorem witness_CommandWordDecodesByItsFields :
    (24 < (0x190000000#33).toNat / 2 ^ 28) ∧ (24 < (0x1FFFFFFFF#33).toNat / 2 ^ 28) ∧
    ((0x18B000000#33).toNat / 2 ^ 28 ≤ 24 ∧ 10 < (0x18B000000#33).toNat / 2 ^ 24 % 16) ∧
    ((0x00F000000#33).toNat / 2 ^ 28 ≤ 24 ∧ 10 < (0x00F000000#33).toNat / 2 ^ 24 % 16) ∧
    unitsInOrder[(0x18A000000#33).toNat / 2 ^ 28]? = some Instr.ldy ∧
    tagsInOrder[(0x18A000000#33).toNat / 2 ^ 24 % 16]? = some Mode.relative :=
  ⟨by decide, by decide, by decide, by decide, rfl, rfl⟩

theorem witness_AccessWordDecodesByItsFields :
    (9 < (0x50000000#31).toNat / 2 ^ 27) ∧ (9 < (0x7FFFFFFF#31).toNat / 2 ^ 27) ∧
    accessesInOrder[(0x4FFFFFFF#31).toNat / 2 ^ 27]? = some Instr.pop ∧
    accessesInOrder[(0x07FFFFFF#31).toNat / 2 ^ 27]? = some Instr.getb :=
  ⟨by decide, by decide, rfl, rfl⟩

theorem witness_StepRunsTheDecodedInstruction :
    (about (.command 0x160000000#33)).pending = [.command 0x160000000#33, .reset] ∧
    (about (.command 0x160000000#33)).halted = false ∧
    decodeTransaction (.command 0x160000000#33) = some (.ok (.lda ⟨.immediate, 0x00#8, 0x0000#16⟩)) := ⟨rfl, rfl, rfl⟩

theorem witness_IllegalWordHaltsAndWritesNothingElse :
    ((about (.command 0x190000000#33)).halted = false ∧ (about (.command 0x190000000#33)).pending = [.command 0x190000000#33, .reset] ∧
      24 < (0x190000000#33).toNat / 2 ^ 28) ∧
    ((about (.command 0x18B000000#33)).pending = [.command 0x18B000000#33, .reset] ∧ (0x18B000000#33).toNat / 2 ^ 28 ≤ 24 ∧
      10 < (0x18B000000#33).toNat / 2 ^ 24 % 16) ∧
    ((about (.access 0x50000000#31)).pending = [.access 0x50000000#31, .reset] ∧ 9 < (0x50000000#31).toNat / 2 ^ 27) := by decide

theorem witness_HaltedBlockNeverLeavesTheHaltWithoutReset :
    ({ haltedState with pending := [.command 0x160000000#33, .access 0x15000000#31] } : State).halted = true ∧
    Transaction.reset ∉ ({ haltedState with pending := [.command 0x160000000#33, .access 0x15000000#31] } : State).pending := by decide

theorem witness_ResetGivesTheConstructionStateFromAnyState :
    ({ haltedState with pending := [.reset, .command 0x160000000#33] } : State).pending = [.reset, .command 0x160000000#33] := rfl

theorem witness_IdleBlockHoldsItsState : (loaded 0x20#8).pending = [] := rfl

theorem witness_StepTakesExactlyOneTransaction : (about .reset).pending = [.reset, .reset] := rfl

theorem witness_OnlyReadOperationsReturnAValue :
    ∃ t, (about (.access 0x02000000#31)).pending = .access 0x02000000#31 :: [.reset] ∧
      step (about (.access 0x02000000#31)) = .next t ∧ t.rdata ≠ none := ⟨_, rfl, rfl, by decide⟩

theorem witness_HaltingStepWritesOnlyTheLatch :
    ∃ t, (about (.access 0x15000000#31)).pending = .access 0x15000000#31 :: [.reset] ∧ (about (.access 0x15000000#31)).halted = false ∧
      step (about (.access 0x15000000#31)) = .next t ∧ t.halted = true := ⟨_, rfl, rfl, rfl, rfl⟩

/-- A run that succeeds and a run that does not. -/
theorem witness_CheckedRunSucceedsExactlyWhenNothingHalts :
    (loaded 0x20#8).halted = false ∧ (∃ t, checkedRun 1 (about (.command 0x160000000#33)) = .next t) ∧
    ¬ ∃ t, checkedRun 1 (about (.command 0x190000000#33)) = .next t := by
  refine ⟨rfl, ⟨_, rfl⟩, ?_⟩
  rintro ⟨t, h⟩
  have hf : (.fault (.preconditionViolation 4#3) : Host.Outcome State Fault Refusal) = .next t := h
  cases hf

theorem witness_EveryStepKeepsTheInvariant :
    ∃ t, State.Inv (about (.access 0x38A5FFFF#31)) ∧ step (about (.access 0x38A5FFFF#31)) = .next t := ⟨_, by decide, rfl⟩

theorem witness_ReservedBitIsPermanentlyOne :
    (∃ t, core.run 1 { State.reset with pending := [.access 0x08000000#31] } = .next t) ∧ (fields 5#3 0x02#8).idx.toNat = 5 :=
  ⟨⟨_, rfl⟩, by decide⟩

theorem witness_CanonicalMemoryIsDeterminedByItsReads :
    Memory.wf [(0x0010, 0x01#8), (0xFFFF, 0xA5#8)] ∧
    ∀ addr : Addr, Memory.read [(0x0010, 0x01#8), (0xFFFF, 0xA5#8)] addr = Memory.read (Memory.write [(0x0010, 0x01#8)] 0xFFFF#16 0xA5#8) addr :=
  ⟨by decide, fun _ => rfl⟩

theorem witness_InstructionHaltsExactlyWhenIllFormed :
    (loaded 0x20#8).halted = false ∧ isUnit (.lda (op0 .absolute)) = true := by decide

/-- The last unit with the last tag. -/
theorem witness_EveryUnitAndTagPairExecutes :
    (about (.command 0x18A000000#33)).pending = .command 0x18A000000#33 :: [.reset] ∧ (about (.command 0x18A000000#33)).halted = false ∧
    (0x18A000000#33).toNat / 2 ^ 28 ≤ 24 ∧ (0x18A000000#33).toNat / 2 ^ 24 % 16 ≤ 10 := by decide

theorem witness_OnlyControlTransfersAndSetpcWritePc :
    ∃ t, exec (.adc (op0 .relative)) (loaded 0x20#8) = .next t ∧ writesPc (.adc (op0 .relative)) = false := ⟨_, rfl, rfl⟩

/-- An instruction that stores, at an address it does not store to, and one that stores nowhere. -/
theorem witness_OnlyStoringInstructionsWriteMemory :
    (∃ t, exec (.jsr (op0 .absolute)) (loaded 0x20#8) = .next t ∧ storesTo (loaded 0x20#8) 0x0101#16 (.jsr (op0 .absolute)) = false) ∧
    (∃ t, exec (.asl (op0 .accumulator)) (loaded 0x20#8) = .next t ∧
      storesTo (loaded 0x20#8) 0x0110#16 (.asl (op0 .accumulator)) = false) := ⟨⟨_, rfl, by decide⟩, ⟨_, rfl, by decide⟩⟩

/-- One instruction that meets all four clauses, and for each register one that meets the other three. -/
theorem witness_RegistersAreWrittenOnlyByTheirListedWriters :
    (∃ t, exec (.cmp (op0 .immediate)) (loaded 0x20#8) = .next t) ∧
    (writesA (.cmp (op0 .immediate)) = false ∧ writesX (.cmp (op0 .immediate)) = false ∧ writesY (.cmp (op0 .immediate)) = false ∧
      writesSp (.cmp (op0 .immediate)) = false) ∧
    (∃ t, exec (.setb (fields 4#3 0xFF#8)) (loaded 0x20#8) = .next t) ∧
    (writesA (.setb (fields 4#3 0xFF#8)) = false ∧ writesX (.setb (fields 4#3 0xFF#8)) = false ∧
      writesSp (.setb (fields 4#3 0xFF#8)) = false) := ⟨⟨_, rfl⟩, by decide, ⟨_, rfl⟩, by decide⟩

theorem witness_FlagsAreWrittenOnlyByTheirListedWriters :
    (∃ t, exec (.setf (fields 4#3 0x01#8)) (loaded 0x20#8) = .next t) ∧
    (writesCarry (.setf (fields 4#3 0x01#8)) = false ∧ writesZeroAndSign (.setf (fields 4#3 0x01#8)) = false ∧
      writesOverflow (.setf (fields 4#3 0x01#8)) = false ∧ accessWritesBit 0 (.setf (fields 4#3 0x01#8)) = false ∧
      accessWritesBit 1 (.setf (fields 4#3 0x01#8)) = false ∧ accessWritesBit 2 (.setf (fields 4#3 0x01#8)) = false ∧
      accessWritesBit 3 (.setf (fields 4#3 0x01#8)) = false ∧ accessWritesBit 6 (.setf (fields 4#3 0x01#8)) = false ∧
      accessWritesBit 7 (.setf (fields 4#3 0x01#8)) = false) ∧
    (∃ t, exec (.cli (op0 .implied)) (loaded 0x20#8) = .next t ∧ accessWritesBit 4 (.cli (op0 .implied)) = false) :=
  ⟨⟨_, rfl⟩, by decide, ⟨_, rfl, rfl⟩⟩

theorem witness_NoUnitSetsDecimalInterruptOrBreak :
    ∃ t, isUnit (.adc (op0 .immediate)) = true ∧ exec (.adc (op0 .immediate)) (loaded 0x3C#8) = .next t ∧
      (t.p.getLsbD 2 = true ∧ t.p.getLsbD 3 = true ∧ t.p.getLsbD 4 = true) := ⟨_, rfl, rfl, by decide⟩

theorem witness_InterruptAndBreakFlagsInfluenceNoUnit :
    ∃ t, isUnit (.bvs (op0 .relative)) = true ∧ exec (.bvs (op0 .relative)) (loaded 0x34#8) = .next t ∧
      ∀ op, Instr.bvs (op0 .relative) ≠ .cli op := ⟨_, rfl, rfl, fun _ => Instr.noConfusion⟩

/-- Each of the four cases, with words that differ in the ignored fields. -/
theorem witness_CommandFieldsAUnitIgnoresHaveNoEffect :
    ((0x18A55FFFF#33).toNat / 2 ^ 28 ∈ [0, 1, 12, 13, 14, 15, 22, 23, 24] ∧ (0x18A55FFFF#33).toNat / 2 ^ 28 = (0x180550000#33).toNat / 2 ^ 28 ∧
      (0x18A55FFFF#33).toNat / 2 ^ 24 % 16 ≤ 10 ∧ (0x180550000#33).toNat / 2 ^ 24 % 16 ≤ 10 ∧
      (0x18A55FFFF#33).toNat / 2 ^ 16 % 256 = (0x180550000#33).toNat / 2 ^ 16 % 256) ∧
    ((0x13AFFFFFF#33).toNat / 2 ^ 28 ∈ [16, 17, 18, 19] ∧ (0x13AFFFFFF#33).toNat / 2 ^ 28 = (0x130000000#33).toNat / 2 ^ 28 ∧
      (0x13AFFFFFF#33).toNat / 2 ^ 24 % 16 ≤ 10 ∧ (0x130000000#33).toNat / 2 ^ 24 % 16 ≤ 10) ∧
    ((0x04AFF0300#33).toNat / 2 ^ 28 ∈ [4, 5, 6, 7, 8, 9, 10, 11, 20, 21] ∧ (0x04AFF0300#33).toNat / 2 ^ 28 = (0x040000300#33).toNat / 2 ^ 28 ∧
      (0x04AFF0300#33).toNat / 2 ^ 24 % 16 ≤ 10 ∧ (0x040000300#33).toNat / 2 ^ 24 % 16 ≤ 10 ∧
      (0x04AFF0300#33).toNat % 65536 = (0x040000300#33).toNat % 65536) ∧
    ((0x034C0FFFF#33).toNat / 2 ^ 28 ∈ [2, 3] ∧ (0x034C0FFFF#33).toNat / 2 ^ 28 = (0x034C00000#33).toNat / 2 ^ 28 ∧
      (0x034C0FFFF#33).toNat / 2 ^ 24 % 16 = 4 ∧ (0x034C00000#33).toNat / 2 ^ 24 % 16 = 4 ∧
      (0x034C0FFFF#33).toNat / 2 ^ 16 % 256 = (0x034C00000#33).toNat / 2 ^ 16 % 256) := by decide

/-- Each of the six cases, with words that differ in the ignored fields. -/
theorem witness_AccessFieldsAnOperationIgnoresHaveNoEffect :
    ((0x15FFFFFF#31).toNat / 2 ^ 27 ∈ [0, 2] ∧ (0x15FFFFFF#31).toNat / 2 ^ 27 = (0x15000000#31).toNat / 2 ^ 27 ∧
      (0x15FFFFFF#31).toNat / 2 ^ 24 % 8 = (0x15000000#31).toNat / 2 ^ 24 % 8) ∧
    ((0x0BA5FFFF#31).toNat / 2 ^ 27 ∈ [1, 3] ∧ (0x0BA5FFFF#31).toNat / 2 ^ 27 = (0x0BA50000#31).toNat / 2 ^ 27 ∧
      (0x0BA5FFFF#31).toNat / 2 ^ 24 % 8 = (0x0BA50000#31).toNat / 2 ^ 24 % 8 ∧
      (0x0BA5FFFF#31).toNat / 2 ^ 16 % 256 = (0x0BA50000#31).toNat / 2 ^ 16 % 256) ∧
    ((0x4FFFFFFF#31).toNat / 2 ^ 27 ∈ [4, 9] ∧ (0x4FFFFFFF#31).toNat / 2 ^ 27 = (0x48000000#31).toNat / 2 ^ 27) ∧
    ((0x37FF1234#31).toNat / 2 ^ 27 ∈ [5, 6] ∧ (0x37FF1234#31).toNat / 2 ^ 27 = (0x30001234#31).toNat / 2 ^ 27 ∧
      (0x37FF1234#31).toNat % 65536 = (0x30001234#31).toNat % 65536) ∧
    ((0x3FA51234#31).toNat / 2 ^ 27 = 7 ∧ (0x3FA51234#31).toNat / 2 ^ 27 = (0x38A51234#31).toNat / 2 ^ 27 ∧
      (0x3FA51234#31).toNat / 2 ^ 16 % 256 = (0x38A51234#31).toNat / 2 ^ 16 % 256 ∧
      (0x3FA51234#31).toNat % 65536 = (0x38A51234#31).toNat % 65536) ∧
    ((0x47A5FFFF#31).toNat / 2 ^ 27 = 8 ∧ (0x47A5FFFF#31).toNat / 2 ^ 27 = (0x40A50000#31).toNat / 2 ^ 27 ∧
      (0x47A5FFFF#31).toNat / 2 ^ 16 % 256 = (0x40A50000#31).toNat / 2 ^ 16 % 256) := by decide

theorem witness_AdcBinaryIsAdditionModulo256 : (loaded 0x21#8).p.getLsbD 3 = false := by decide

/-- 0x58 + 0x46 + 1 in decimal mode: 0x9F, then 0xA5, then 0x105 (95_test_vectors.md section 2.2). -/
theorem witness_AdcDecimalFollowsTheCorrectionSteps :
    (withAP 0x58#8 0x29#8).p.getLsbD 3 = true ∧
    0x9F = (withAP 0x58#8 0x29#8).a.toNat + (0x46#8).toNat + ((withAP 0x58#8 0x29#8).p.getLsbD 0).toNat ∧
    0xA5 = (if 9 < (withAP 0x58#8 0x29#8).a.toNat % 16 + (0x46#8).toNat % 16 + ((withAP 0x58#8 0x29#8).p.getLsbD 0).toNat then 0x9F + 6 else 0x9F) ∧
    0x105 = (if 0x99 < 0xA5 then 0xA5 + 96 else 0xA5) := by decide

theorem witness_AdcDecimalAddsValidBcd :
    (withAP 0x58#8 0x29#8).p.getLsbD 3 = true ∧ isBcd (withAP 0x58#8 0x29#8).a ∧ isBcd 0x46#8 :=
  ⟨by decide, ⟨by decide, by decide⟩, ⟨by decide, by decide⟩⟩

theorem witness_AslShiftsLeftAndWritesBack : (op0 .accumulator).mode = .accumulator ∧ (op0 .immediate).mode ≠ .accumulator := by decide

theorem witness_LsrShiftsRightAndWritesBack : (op0 .accumulator).mode = .accumulator ∧ (op0 .relative).mode ≠ .accumulator := by decide

theorem witness_BranchTestsItsFlagAndWritesOnlyPc :
    (Instr.bcc, 0, false) ∈ [(Instr.bcc, 0, false), (Instr.bcs, 0, true), (Instr.beq, 1, true), (Instr.bne, 1, false),
      (Instr.bmi, 7, true), (Instr.bpl, 7, false), (Instr.bvc, 6, false), (Instr.bvs, 6, true)] ∧
    (Instr.bvs, 6, true) ∈ [(Instr.bcc, 0, false), (Instr.bcs, 0, true), (Instr.beq, 1, true), (Instr.bne, 1, false),
      (Instr.bmi, 7, true), (Instr.bpl, 7, false), (Instr.bvc, 6, false), (Instr.bvs, 6, true)] := by simp

theorem witness_CompareSetsCarryZeroSignOnly :
    (Instr.cpx, (loaded 0x20#8).x) ∈ [(Instr.cmp, (loaded 0x20#8).a), (Instr.cpx, (loaded 0x20#8).x), (Instr.cpy, (loaded 0x20#8).y)] := by
  simp

theorem witness_ClearUnitsClearExactlyOneFlag :
    (Instr.clv, 6) ∈ [(Instr.clc, 0), (Instr.cld, 3), (Instr.cli, 2), (Instr.clv, 6)] ∧ (loaded 0x20#8).p.getLsbD 6 = false :=
  ⟨by simp, by decide⟩

theorem witness_LoadCopiesTheOperandAndSetsSignZero :
    (Instr.ldy, { loaded 0x20#8 with y := 0x81#8 }) ∈ [(Instr.lda, { loaded 0x20#8 with a := 0x81#8 }),
      (Instr.ldx, { loaded 0x20#8 with x := 0x81#8 }), (Instr.ldy, { loaded 0x20#8 with y := 0x81#8 })] := by simp

/-- The first and the last select. -/
theorem witness_GetbReturnsTheSelectedRegister :
    ((fields 0#3 0x00#8).idx, 0x20#8) ∈ [(0#3, (loaded 0x20#8).p ||| 0x20#8), (1#3, (loaded 0x20#8).sp), (2#3, (loaded 0x20#8).a),
      (3#3, (loaded 0x20#8).x), (4#3, (loaded 0x20#8).y)] ∧
    ((fields 4#3 0x00#8).idx, 0x33#8) ∈ [(0#3, (loaded 0x20#8).p ||| 0x20#8), (1#3, (loaded 0x20#8).sp), (2#3, (loaded 0x20#8).a),
      (3#3, (loaded 0x20#8).x), (4#3, (loaded 0x20#8).y)] := by simp [fields, loaded]

theorem witness_SetbWritesTheSelectedRegister :
    ((fields 4#3 0xFF#8).idx, { loaded 0x20#8 with y := 0xFF#8 }) ∈ [(0#3, { loaded 0x20#8 with p := 0xFF#8 ||| 0x20#8 }),
      (1#3, { loaded 0x20#8 with sp := 0xFF#8 }), (2#3, { loaded 0x20#8 with a := 0xFF#8 }), (3#3, { loaded 0x20#8 with x := 0xFF#8 }),
      (4#3, { loaded 0x20#8 with y := 0xFF#8 })] := by decide

theorem witness_SetbThenGetbReturnsTheValueWritten :
    ((fields 0#3 0xC3#8).idx.toNat ≤ 4 ∧ (fields 0#3 0x00#8).idx = (fields 0#3 0xC3#8).idx ∧ (fields 0#3 0xC3#8).idx = 0#3) ∧
    ((fields 4#3 0xC3#8).idx.toNat ≤ 4 ∧ (fields 4#3 0x00#8).idx = (fields 4#3 0xC3#8).idx ∧ (fields 4#3 0xC3#8).idx ≠ 0#3) := by decide

theorem witness_GetfReturnsTheIndexedFlag :
    (fields 4#3 0x00#8).idx.toNat ≠ 5 ∧ (fields 5#3 0x00#8).idx.toNat = 5 ∧ (fields 6#3 0x00#8).idx.toNat ≠ 5 ∧ (fields 0#3 0x00#8).idx = 0#3 := by
  decide

theorem witness_SetfWritesTheIndexedFlagAlone :
    ((fields 6#3 0x01#8).idx.toNat ≠ 5 ∧ (fields 6#3 0x01#8).data.toNat ≤ 1) ∧ (fields 5#3 0x02#8).idx.toNat = 5 ∧
    ((fields 4#3 0x02#8).idx.toNat ≠ 5 ∧ 1 < (fields 4#3 0x02#8).data.toNat) := by decide

theorem witness_InvalidRegisterSelectHaltsWithCause3 : 4 < (fields 5#3 0x00#8).idx.toNat ∧ 4 < (fields 7#3 0x00#8).idx.toNat := by decide

theorem witness_WrStoresTheByteAndNothingElse : (fields 7#3 0x00#8).addr = (fields 0#3 0xA5#8).addr := rfl

theorem witness_TwoHundredFiftySixPushesOverwriteTheStackPage :
    (List.replicate 256 0xA5#8).length = 256 ∧ (0 < (List.replicate 256 0xA5#8).length ∧ 255 < (List.replicate 256 0xA5#8).length) ∧
    ((0x00FF#16).toNat < 256 ∧ 512 ≤ (0x0200#16).toNat) := by
  rw [List.length_replicate]; exact ⟨rfl, ⟨by decide, by decide⟩, ⟨by decide, by decide⟩⟩

/-- Each of the six tags, so each of the five clauses. -/
theorem witness_HarnessResolvesWhatTheDriverOwes :
    (loaded 0x20#8).halted = false ∧
    ∀ m ∈ [Mode.immediate, .absolute, .zeroPageAbsolute, .accumulator, .implied, .relative], harnessResolves m = true := by decide

/-- The last unit. -/
theorem witness_HarnessAdvancesPcBeforeTheCommand :
    (loaded 0x20#8).halted = false ∧ harnessResolves (⟨24#5, .absolute, 0x1234#16, 3⟩ : HarnessEntry).tag = true ∧
    (⟨24#5, .absolute, 0x1234#16, 3⟩ : HarnessEntry).unit.toNat ≤ 24 := by decide

end Sys2Proof.Tests
end

section
/-! PROOFS. The statements of 00_scope.md: what one transaction is (R7 to R10), and which flags no unit sets (R5). -/

namespace Sys2Proof.Proofs

open Sys2Proof Sys2Proof.Machine Sys2Proof.Claims

/-! ## What a step does with the oldest transaction -/

/-- A word of either port is offered to the block with its own decoding. -/
theorem issued_word (s : State) (w : Transaction) (rest : List Transaction) (d : Except Cause Instr)
    (hp : s.pending = w :: rest) (hd : decodeTransaction w = some d) :
    issued s = offered s.halted d (s.accept rest) := by
  cases w with
  | reset => simp [decodeTransaction] at hd
  | command cw => cases hd; simp [issued, hp]
  | access aw => cases hd; simp [issued, hp]

/-- Reset is carried out in every state, halted or not (70_reset_and_hazards.md R330). -/
theorem step_reset (s : State) (rest : List Transaction) (hp : s.pending = .reset :: rest) :
    step s = .next (State.afterReset rest) := by
  simp [step, issued, hp]

/-- A halted block ignores a word (60_exceptions.md R294). -/
theorem step_ignored (s : State) (w : Transaction) (rest : List Transaction) (d : Except Cause Instr)
    (hp : s.pending = w :: rest) (hd : decodeTransaction w = some d) (hh : s.halted = true) :
    step s = .next (s.accept rest) := by
  simp [step, issued_word s w rest d hp hd, offered, hh]

/-- A running block takes the violation of a word that does not decode (R291). -/
theorem step_illegal (s : State) (w : Transaction) (rest : List Transaction) (c : Cause)
    (hp : s.pending = w :: rest) (hd : decodeTransaction w = some (.error c)) (hh : s.halted = false) :
    step s = .next ((s.accept rest).raise c) := by
  simp [step, issued_word s w rest _ hp hd, offered, hh]

/-- A running block runs the instruction a word decodes to (00_scope.md R7; 30_encoding.md R105). -/
theorem step_decoded (s : State) (w : Transaction) (rest : List Transaction) (i : Instr)
    (hp : s.pending = w :: rest) (hd : decodeTransaction w = some (.ok i)) (hh : s.halted = false) :
    step s = exec i (s.accept rest) := by
  simp [step, issued_word s w rest _ hp hd, offered, hh]

/-! ## An instruction's effect does not depend on what is still pending -/

/-- What is pending plays no part in a branch. -/
theorem branch_withPending (s : State) (cond : Bool) (op : ResolvedOperand) (q : List Transaction) :
    State.branch { s with pending := q } cond op = { s.branch cond op with pending := q } := by cases cond <;> rfl

/-- What is pending plays no part in a register write. -/
theorem writeReg_withPending (s : State) (r : Reg) (v : Byte) (q : List Transaction) :
    State.writeReg { s with pending := q } r v = { s.writeReg r v with pending := q } := by cases r <;> rfl

/-- What is pending plays no part in a shift's write-back, to the accumulator or to memory. -/
theorem writeBack_withPending (s : State) (op : ResolvedOperand) (r : Byte) (q : List Transaction) :
    State.writeBack { s with pending := q } op r = { s.writeBack op r with pending := q } := by
  by_cases hm : op.mode = .accumulator
  · simp only [writeBack_accumulator _ op r hm, writeReg_withPending]
  · simp only [writeBack_memory _ op r hm]; rfl

/-- An instruction run with another list of pending transactions has the same effect, beside that list. -/
theorem exec_withPending (i : Instr) (s t : State) (q : List Transaction) (h : exec i s = .next t) :
    exec i { s with pending := q } = .next { t with pending := q } := by
  cases i with
  | getb f =>
    simp only [exec, execGetb] at h ⊢
    cases hr : regOfSelect f.idx with
    | error c => rw [hr] at h; cases h; rfl
    | ok r => rw [hr] at h; cases h; cases r <;> rfl
  | setb f =>
    simp only [exec, execSetb] at h ⊢
    cases hr : regOfSelect f.idx with
    | error c => rw [hr] at h; cases h; rfl
    | ok r => rw [hr] at h; cases h; exact congrArg _ (writeReg_withPending s r f.data q)
  | getf f =>
    simp only [exec, execGetf] at h ⊢
    cases hf : flagOfIndex f.idx with
    | error c => rw [hf] at h; cases h; rfl
    | ok fl => rw [hf] at h; cases h; rfl
  | setf f =>
    simp only [exec, execSetf] at h ⊢
    cases hf : flagOfIndex f.idx with
    | error c => rw [hf] at h; cases h; rfl
    | ok fl =>
      cases hv : flagValueOf f.data with
      | error c => rw [hf, hv] at h; cases h; rfl
      | ok b => rw [hf, hv] at h; cases h; rfl
  | asl op =>
    cases h
    exact congrArg _ (writeBack_withPending ((s.setFlag .carry ((aslWide op.operandValue).getLsbD 8)).setSignZero _) op _ q)
  | lsr op =>
    cases h
    exact congrArg _ (writeBack_withPending ((s.setFlag .carry (op.operandValue.getLsbD 0)).setSignZero _) op _ q)
  | bcc op | bcs op | beq op | bne op | bmi op | bpl op | bvc op | bvs op =>
    cases h; exact congrArg _ (branch_withPending s _ op q)
  | _ => cases h; rfl

/-- A transaction has one effect, whatever is issued after it and whatever was returned before it (00_scope.md R7, R10). -/
theorem step_effect (s : State) (w : Transaction) :
    ∃ t : State, ∀ (rest : List Transaction) (d : Option Wide),
      step { s with pending := w :: rest, rdata := d } = .next { t with pending := rest } := by
  cases hd : decodeTransaction w with
  | none =>
    cases w with
    | reset => exact ⟨State.reset, fun rest d => step_reset _ rest rfl⟩
    | command cw => cases hd
    | access aw => cases hd
  | some decoded =>
    obtain hh | hh := Bool.eq_false_or_eq_true s.halted
    · exact ⟨s.accept [], fun rest d => step_ignored _ w rest decoded rfl hd hh⟩
    · cases decoded with
      | error c => exact ⟨(s.accept []).raise c, fun rest d => step_illegal _ w rest c rfl hd hh⟩
      | ok i =>
        obtain ⟨t, ht⟩ := exec_next i (s.accept [])
        refine ⟨t, fun rest d => ?_⟩
        rw [step_decoded { s with pending := w :: rest, rdata := d } w rest i rfl hd hh]
        exact exec_withPending i (s.accept []) t rest ht

/-! ## Which instructions return a value -/

/-- Only a read operation changes what is returned (30_encoding.md R99). -/
theorem exec_rdata (i : Instr) (s t : State) (h : exec i s = .next t) (hi : returnsValue i = false) : t.rdata = s.rdata := by
  cases i with
  | getb f | getf f | getpc f | rd f | pop f => cases hi
  | setb f => rcases execSetb_cases f s with ⟨_, r, _, e⟩ | ⟨_, e⟩ <;> (rw [exec, e] at h; cases h; simp)
  | setf f => rcases execSetf_cases f s with ⟨_, fl, b, _, _, e⟩ | ⟨_, _, e⟩ | ⟨_, e⟩ <;> (rw [exec, e] at h; cases h; simp)
  | asl op => rcases execAsl_cases op s t h with ⟨_, rfl⟩ | ⟨_, rfl⟩ <;> simp
  | lsr op => rcases execLsr_cases op s t h with ⟨_, rfl⟩ | ⟨_, rfl⟩ <;> simp
  | _ => cases h; simp [branch_eq, State.load]

/-- A command word decodes to a unit of the table of R92 on its operand. -/
theorem decodeCommand_mem_unitTable (cw : CommandWord) (i : Instr) (h : decodeCommand cw = .ok i) :
    ∃ unit ∈ unitTable, ∃ op, i = unit op := by
  unfold decodeCommand at h
  cases hu : unitOfCode (unitField cw) with
  | none => simp [hu] at h
  | some unit =>
    cases hm : modeOfCode (modeField cw) with
    | none => simp [hu, hm] at h
    | some m =>
      simp only [hu, hm, Except.ok.injEq] at h
      exact ⟨unit, List.mem_of_getElem? hu, _, h.symm⟩

/-- No execution unit returns a value (R8, R99). -/
theorem returnsValue_unit : ∀ unit ∈ unitTable, ∀ op, returnsValue (unit op) = false := by
  simp [unitTable, returnsValue]

/-! ## The flags no unit sets -/

/-- Beside Carry, Zero, Overflow and Sign a unit keeps every bit of P or clears it. -/
theorem unit_keeps_or_clears_bit (i : Instr) (s t : State) (hu : isUnit i = true) (h : exec i s = .next t) (k : Nat)
    (hk : k ∉ [flagIndex .carry, flagIndex .zero, flagIndex .overflow, flagIndex .sign]) :
    t.p.getLsbD k = s.p.getLsbD k ∨ t.p.getLsbD k = false := by
  simp only [List.mem_cons, List.not_mem_nil, or_false, not_or] at hk
  obtain ⟨hc, hz, hv, hn⟩ := hk
  cases i with
  | getb f | setb f | getf f | setf f | getpc f | setpc f | rd f | wr f | push f | pop f => cases hu
  | cld op | cli op =>
    cases h
    rw [setFlag_p, getLsbD_withFlag]
    split_ifs
    · exact .inr rfl
    · exact .inl rfl
  | asl op => rcases execAsl_cases op s t h with ⟨_, rfl⟩ | ⟨_, rfl⟩ <;> simp [getLsbD_withFlag, *]
  | lsr op => rcases execLsr_cases op s t h with ⟨_, rfl⟩ | ⟨_, rfl⟩ <;> simp [getLsbD_withFlag, *]
  | _ => cases h; left; simp [branch_eq, State.load, State.compare, getLsbD_withFlag, *]

/-! ## The obligations -/

/-- Settles O13: the effect `step_effect` gives keeps exactly the later transactions pending. -/
theorem stepTakesExactlyOneTransaction : Obligations.StepTakesExactlyOneTransaction := by
  intro s w rest hp
  obtain ⟨t, ht⟩ := step_effect s w
  have hs : step s = .next { t with pending := rest } := by
    rw [← ht rest s.rdata, ← hp]
  exact ⟨_, hs, rfl⟩

/-- Settles O14: both steps have the one effect of the word. -/
theorem effectDependsOnStateAndWordAlone : Obligations.EffectDependsOnStateAndWordAlone := by
  intro s w r1 r2 d1 d2
  obtain ⟨t, ht⟩ := step_effect s w
  exact ⟨t, ht r1 d1, ht r2 d2⟩

/-- Settles O15: whatever else a step does leaves `rdata` cleared, and no word of the command port decodes to a read operation. -/
theorem onlyReadOperationsReturnAValue : Obligations.OnlyReadOperationsReturnAValue := by
  intro s t w rest hp hs hr
  rcases step_cases s t hs with ⟨hnil, _⟩ | ⟨_, _, rfl⟩ | ⟨_, _, _, _, _, rfl⟩ | ⟨_, _, _, _, _, _, rfl⟩ |
    ⟨w', rest', i, hp', hh, hd, he⟩
  · simp [hp] at hnil
  · exact absurd rfl hr
  · exact absurd rfl hr
  · exact absurd rfl hr
  · obtain ⟨rfl, rfl⟩ : w = w' ∧ rest = rest' := by simpa [hp] using hp'
    have hi : returnsValue i = true := by
      by_contra hi
      exact hr (exec_rdata i _ t he (Bool.eq_false_iff.mpr hi))
    refine ⟨hh, ?_⟩
    cases w with
    | reset => cases hd
    | command cw =>
      obtain ⟨unit, hmem, op, rfl⟩ := decodeCommand_mem_unitTable cw i (Option.some.inj hd)
      simp [returnsValue_unit unit hmem op] at hi
    | access aw => exact ⟨aw, i, rfl, Option.some.inj hd, hi⟩

/-- Settles O28: bits 2, 3 and 4 are none of the four a unit may set. -/
theorem noUnitSetsDecimalInterruptOrBreak : Obligations.NoUnitSetsDecimalInterruptOrBreak := by
  intro i s t hu h
  have set_before (k : Nat) (hk : k ∉ [flagIndex .carry, flagIndex .zero, flagIndex .overflow, flagIndex .sign])
      (ht : t.p.getLsbD k = true) : s.p.getLsbD k = true := by
    rcases unit_keeps_or_clears_bit i s t hu h k hk with e | e
    · exact e ▸ ht
    · simp [e] at ht
  exact ⟨set_before 2 (by decide), set_before 3 (by decide), set_before 4 (by decide)⟩

/-- Settles O6: `step_decoded`, the state of `State.accept` written out. -/
theorem stepRunsTheDecodedInstruction : Obligations.StepRunsTheDecodedInstruction :=
  fun s w rest i hp hh hd => step_decoded s w rest i hp hd hh

/-- Settles O12: idle and settled transactions answer a state as they stand, and every instruction answers one. -/
theorem everyStepAnswersANextState : Obligations.EveryStepAnswersANextState := by
  intro s
  cases hi : issued s with
  | idle => exact ⟨s, by simp [step, hi]⟩
  | settled t => exact ⟨t, by simp [step, hi]⟩
  | run i t => simpa [step, hi] using exec_next i t

end Sys2Proof.Proofs
end

section
/-! PROOFS. The statements of 10_state.md: the invariant and the reserved bit (R27, R45), who writes which part of the state (R23 to
R40), the two storage flags (R32, R34), and the register and flag accesses (R28, R29, R37). -/

namespace Sys2Proof.Proofs

open Sys2Proof Sys2Proof.Machine Sys2Proof.Claims

/-! ## Which bits of P an instruction writes -/

/-- The flags an execution unit may write, by the writer lists of R30 to R36; SETF and SETB are told by `accessWritesBit`. -/
def flagsWritten : Instr → List Flag
  | .adc _ => [.carry, .zero, .overflow, .sign]
  | .asl _ | .lsr _ | .cmp _ | .cpx _ | .cpy _ => [.carry, .zero, .sign]
  | .and _ | .lda _ | .ldx _ | .ldy _ => [.zero, .sign]
  | .bit _ => [.zero, .overflow, .sign]
  | .clc _ => [.carry]
  | .cld _ => [.decimal]
  | .cli _ => [.interruptDisable]
  | .clv _ => [.overflow]
  | _ => []

theorem carry_mem_flagsWritten (i : Instr) : .carry ∈ flagsWritten i ↔ writesCarry i = true := by
  cases i <;> simp [flagsWritten, writesCarry]

theorem zero_mem_flagsWritten (i : Instr) : .zero ∈ flagsWritten i ↔ writesZeroAndSign i = true := by
  cases i <;> simp [flagsWritten, writesZeroAndSign]

theorem sign_mem_flagsWritten (i : Instr) : .sign ∈ flagsWritten i ↔ writesZeroAndSign i = true := by
  cases i <;> simp [flagsWritten, writesZeroAndSign]

theorem overflow_mem_flagsWritten (i : Instr) : .overflow ∈ flagsWritten i ↔ writesOverflow i = true := by
  cases i <;> simp [flagsWritten, writesOverflow]

theorem interruptDisable_mem_flagsWritten (i : Instr) : .interruptDisable ∈ flagsWritten i ↔ ∃ op, i = .cli op := by
  cases i <;> simp [flagsWritten]

theorem decimal_mem_flagsWritten (i : Instr) : .decimal ∈ flagsWritten i ↔ ∃ op, i = .cld op := by
  cases i <;> simp [flagsWritten]

theorem breakOnInterrupt_not_mem_flagsWritten (i : Instr) : .breakOnInterrupt ∉ flagsWritten i := by
  cases i <;> simp [flagsWritten]

/-- A write of a register other than Status keeps P. -/
theorem writeReg_p_of_ne_status (s : State) (r : Reg) (v : Byte) (hr : r ≠ .status) : (s.writeReg r v).p = s.p := by
  cases r with
  | status => exact absurd rfl hr
  | _ => rfl

/-- Status is the register of select 0 alone (30_encoding.md R100). -/
theorem eq_status_iff_of_regOfSelect (idx : BitVec 3) (r : Reg) (h : regOfSelect idx = .ok r) : r = .status ↔ idx = 0#3 := by
  rcases regOfSelect_ok idx r h with ⟨rfl, rfl⟩ | ⟨rfl, rfl⟩ | ⟨rfl, rfl⟩ | ⟨rfl, rfl⟩ | ⟨rfl, rfl⟩ <;> decide

/-- A bit of P stays as it was unless it is a flag the unit writes, or an access writes it. -/
theorem exec_keeps_bit (i : Instr) (s t : State) (h : exec i s = .next t) (k : Nat)
    (hu : ∀ f ∈ flagsWritten i, k ≠ flagIndex f) (ha : accessWritesBit k i = false) : t.p.getLsbD k = s.p.getLsbD k := by
  cases i with
  | getb f => rcases execGetb_cases f s with ⟨_, r, _, e⟩ | ⟨_, e⟩ <;> (rw [exec, e] at h; cases h; rfl)
  | getf f => rcases execGetf_cases f s with ⟨_, fl, _, e⟩ | ⟨_, e⟩ <;> (rw [exec, e] at h; cases h; rfl)
  | setb f =>
    rcases execSetb_cases f s with ⟨_, r, hr, e⟩ | ⟨_, e⟩
    · rw [exec, e] at h; cases h
      have hne : r ≠ .status := by simpa [eq_status_iff_of_regOfSelect f.idx r hr, accessWritesBit] using ha
      rw [writeReg_p_of_ne_status s r _ hne]
    · rw [exec, e] at h; cases h; rfl
  | setf f =>
    rcases execSetf_cases f s with ⟨_, fl, b, hi, _, e⟩ | ⟨_, _, e⟩ | ⟨_, e⟩
    · rw [exec, e] at h; cases h
      have hne : k ≠ flagIndex fl := by rw [hi]; exact Ne.symm (of_decide_eq_false ha)
      rw [setFlag_p, getLsbD_withFlag, if_neg hne]
    · rw [exec, e] at h; cases h; rfl
    · rw [exec, e] at h; cases h; rfl
  | asl op =>
    simp only [flagsWritten, List.forall_mem_cons] at hu
    rcases execAsl_cases op s t h with ⟨_, rfl⟩ | ⟨_, rfl⟩ <;> simp [getLsbD_withFlag, hu]
  | lsr op =>
    simp only [flagsWritten, List.forall_mem_cons] at hu
    rcases execLsr_cases op s t h with ⟨_, rfl⟩ | ⟨_, rfl⟩ <;> simp [getLsbD_withFlag, hu]
  | _ =>
    simp only [flagsWritten, List.forall_mem_cons] at hu
    cases h; simp [branch_eq, State.load, State.compare, getLsbD_withFlag, hu]

/-- A flag stays as it was unless the unit writes it, or an access writes its bit. -/
theorem exec_keeps_flag (i : Instr) (s t : State) (h : exec i s = .next t) (f : Flag) (hf : f ∉ flagsWritten i)
    (ha : accessWritesBit (flagIndex f) i = false) : t.p.getLsbD (flagIndex f) = s.p.getLsbD (flagIndex f) :=
  exec_keeps_bit i s t h (flagIndex f) (fun g hg e => hf ((flagIndex_inj f g).mp e ▸ hg)) ha

/-! ## The invariant -/

/-- Bit 5 of P stays 1: no unit writes it, SETB of Status forces it (R37) and SETF of it raises (R27). -/
theorem exec_keeps_reserved_bit (i : Instr) (s t : State) (h : exec i s = .next t) (hp : s.p.getLsbD 5 = true) :
    t.p.getLsbD 5 = true := by
  cases ha : accessWritesBit 5 i with
  | false => exact (exec_keeps_bit i s t h 5 (fun f _ => (flagIndex_ne_five f).symm) ha).trans hp
  | true =>
    cases i with
    | setb f =>
      rcases execSetb_cases f s with ⟨_, r, hr, e⟩ | ⟨_, e⟩
      · rw [exec, e] at h; cases h
        have hs : r = .status := by simpa [eq_status_iff_of_regOfSelect f.idx r hr, accessWritesBit] using ha
        subst hs
        rw [writeReg_status_p, getLsbD_hardwired]; simp
      · rw [exec, e] at h; cases h; exact hp
    | setf f =>
      have hi : f.idx.toNat = 5 := of_decide_eq_true ha
      rcases execSetf_cases f s with ⟨hn, _⟩ | ⟨hn, _⟩ | ⟨_, e⟩
      · exact absurd hi hn
      · exact absurd hi hn
      · rw [exec, e] at h; cases h; exact hp
    | _ => cases ha

/-- Every instruction keeps the canonical form of memory: it stores by `Memory.write` or not at all. -/
theorem exec_keeps_memory_wf (i : Instr) (s t : State) (h : exec i s = .next t) (hm : Memory.wf s.mem) : Memory.wf t.mem := by
  cases i with
  | getb f => rcases execGetb_cases f s with ⟨_, r, _, e⟩ | ⟨_, e⟩ <;> (rw [exec, e] at h; cases h; exact hm)
  | getf f => rcases execGetf_cases f s with ⟨_, fl, _, e⟩ | ⟨_, e⟩ <;> (rw [exec, e] at h; cases h; exact hm)
  | setb f =>
    rcases execSetb_cases f s with ⟨_, r, _, e⟩ | ⟨_, e⟩
    · rw [exec, e] at h; cases h; rwa [writeReg_mem]
    · rw [exec, e] at h; cases h; exact hm
  | setf f => rcases execSetf_cases f s with ⟨_, fl, b, _, _, e⟩ | ⟨_, _, e⟩ | ⟨_, e⟩ <;> (rw [exec, e] at h; cases h; exact hm)
  | asl op =>
    rcases execAsl_cases op s t h with ⟨_, rfl⟩ | ⟨_, rfl⟩
    · exact hm
    · exact State.wf_write _ _ _ hm
  | lsr op =>
    rcases execLsr_cases op s t h with ⟨_, rfl⟩ | ⟨_, rfl⟩
    · exact hm
    · exact State.wf_write _ _ _ hm
  | wr f => cases h; exact State.wf_write s _ _ hm
  | push f => cases h; exact State.wf_push s _ hm
  | jsr op => cases h; exact State.wf_push _ _ (State.wf_push s _ hm)
  | bcc op | bcs op | beq op | bne op | bmi op | bpl op | bvc op | bvs op => cases h; rwa [branch_eq]
  | _ => cases h; exact hm

/-- An instruction either leaves the latch and its cause alone, or is a violation and does nothing but set them (60_exceptions.md
R291). -/
theorem exec_keeps_latch_or_raises (i : Instr) (s t : State) (h : exec i s = .next t) :
    (t.halted = s.halted ∧ t.haltCause = s.haltCause) ∨ ∃ c, t = s.raise c := by
  cases i with
  | getb f =>
    rcases execGetb_cases f s with ⟨_, r, _, e⟩ | ⟨_, e⟩
    · rw [exec, e] at h; cases h; exact .inl ⟨rfl, rfl⟩
    · rw [exec, e] at h; cases h; exact .inr ⟨_, rfl⟩
  | getf f =>
    rcases execGetf_cases f s with ⟨_, fl, _, e⟩ | ⟨_, e⟩
    · rw [exec, e] at h; cases h; exact .inl ⟨rfl, rfl⟩
    · rw [exec, e] at h; cases h; exact .inr ⟨_, rfl⟩
  | setb f =>
    rcases execSetb_cases f s with ⟨_, r, _, e⟩ | ⟨_, e⟩
    · rw [exec, e] at h; cases h; exact .inl ⟨writeReg_halted _ _ _, writeReg_haltCause _ _ _⟩
    · rw [exec, e] at h; cases h; exact .inr ⟨_, rfl⟩
  | setf f =>
    rcases execSetf_cases f s with ⟨_, fl, b, _, _, e⟩ | ⟨_, _, e⟩ | ⟨_, e⟩
    · rw [exec, e] at h; cases h; exact .inl ⟨rfl, rfl⟩
    · rw [exec, e] at h; cases h; exact .inr ⟨_, rfl⟩
    · rw [exec, e] at h; cases h; exact .inr ⟨_, rfl⟩
  | asl op => rcases execAsl_cases op s t h with ⟨_, rfl⟩ | ⟨_, rfl⟩ <;> exact .inl ⟨rfl, rfl⟩
  | lsr op => rcases execLsr_cases op s t h with ⟨_, rfl⟩ | ⟨_, rfl⟩ <;> exact .inl ⟨rfl, rfl⟩
  | bcc op | bcs op | beq op | bne op | bmi op | bpl op | bvc op | bvs op => cases h; left; simp [branch_eq]
  | _ => cases h; exact .inl ⟨rfl, rfl⟩

/-- A violation leaves the latch set with one of the causes 1 to 6 (60_exceptions.md R293). -/
theorem raise_latchOk (s : State) (c : Cause) : (s.raise c).latchOk := by
  have hc : 1 ≤ (causeCode c).toNat ∧ (causeCode c).toNat ≤ 6 := by cases c <;> decide
  exact .inr ⟨rfl, hc⟩

/-- Taking a violation keeps the invariant. -/
theorem raise_inv (s : State) (c : Cause) (hs : s.Inv) : (s.raise c).Inv := by
  obtain ⟨hp, hm, _⟩ := hs
  exact ⟨hp, hm, raise_latchOk s c⟩

/-- Every instruction keeps the invariant. -/
theorem exec_inv (i : Instr) (s t : State) (hs : s.Inv) (h : exec i s = .next t) : t.Inv := by
  obtain ⟨hp, hm, hl⟩ := hs
  refine ⟨exec_keeps_reserved_bit i s t h hp, exec_keeps_memory_wf i s t h hm, ?_⟩
  rcases exec_keeps_latch_or_raises i s t h with ⟨hh, hc⟩ | ⟨c, rfl⟩
  · rwa [State.latchOk, hh, hc]
  · exact raise_latchOk s c

/-- The construction state meets the invariant (R27, R45). -/
theorem afterReset_inv (rest : List Transaction) : (State.afterReset rest).Inv :=
  ⟨by rw [afterReset_p]; decide, Memory.wf_reset, .inl ⟨rfl, rfl⟩⟩

/-- Settles O18: what is accepted, raised or reset keeps the invariant, and so does every instruction. -/
theorem everyStepKeepsTheInvariant : Obligations.EveryStepKeepsTheInvariant := by
  intro s t hs h
  rcases step_cases s t h with ⟨_, rfl⟩ | ⟨rest, _, rfl⟩ | ⟨_, rest, _, _, _, rfl⟩ | ⟨_, rest, c, _, _, _, rfl⟩ |
    ⟨_, rest, i, _, _, _, he⟩
  · exact hs
  · exact afterReset_inv rest
  · exact hs
  · exact raise_inv (s.accept rest) c hs
  · exact exec_inv i (s.accept rest) t hs he

/-- Every run keeps the invariant. -/
theorem run_inv (k : Nat) (s t : State) (hs : s.Inv) (h : core.run k s = .next t) : t.Inv := by
  induction k generalizing s with
  | zero => cases h; exact hs
  | succ k ih =>
    obtain ⟨u, hu⟩ := everyStepAnswersANextState s
    rw [run_succ k s u hu] at h
    exact ih u (everyStepKeepsTheInvariant s u hs hu) h

/-- Settles O19: it is the state the reset transaction gives. -/
theorem resetStateMeetsTheInvariant : Obligations.ResetStateMeetsTheInvariant :=
  afterReset_inv

/-! ## The flag and register accesses -/

/-- Reading flag index 5 is a violation with cause 1 (60_exceptions.md R292). -/
theorem execGetf_reserved (f : AccessFields) (s : State) (hi : f.idx.toNat = 5) :
    execGetf f s = .next (s.raise .reservedFlagIndex) := by
  rcases execGetf_cases f s with ⟨hn, _⟩ | ⟨_, e⟩
  · exact absurd hi hn
  · exact e

/-- Writing flag index 5 is a violation with cause 1, whatever the value (60_exceptions.md R292, R297). -/
theorem execSetf_reserved (f : AccessFields) (s : State) (hi : f.idx.toNat = 5) :
    execSetf f s = .next (s.raise .reservedFlagIndex) := by
  rcases execSetf_cases f s with ⟨hn, _⟩ | ⟨hn, _⟩ | ⟨_, e⟩
  · exact absurd hi hn
  · exact absurd hi hn
  · exact e

/-- Settles O20: the invariant along the run gives the bit, and index 5 is the reserved one in both accesses. -/
theorem reservedBitIsPermanentlyOne : Obligations.ReservedBitIsPermanentlyOne := by
  refine ⟨fun script k t h => ?_, fun s f hi => ⟨execGetf_reserved f s hi, execSetf_reserved f s hi⟩⟩
  obtain ⟨hp, _, _⟩ := run_inv k _ t (resetStateMeetsTheInvariant script) h
  exact hp

/-- A flag as the value GETF returns (40_access_port.md R132). -/
theorem setWidth_ofBool (b : Bool) : (BitVec.ofBool b).setWidth 16 = if b then 1#16 else 0#16 := by cases b <;> rfl

/-- What a register reads after a write to it: the value, with bit 5 forced for Status (R37). -/
theorem readReg_writeReg_same (s : State) (r : Reg) (v : Byte) :
    (s.writeReg r v).readReg r = if r = .status then hardwired v else v := by
  cases r with
  | status => exact hardwired_eq_self (hardwired v) (by rw [getLsbD_hardwired]; simp)
  | _ => rfl

/-- Forcing bit 5 changes nothing exactly when the bit is set. -/
theorem hardwired_eq_self_iff (v : Byte) : hardwired v = v ↔ v.getLsbD 5 = true :=
  ⟨fun h => by rw [← h, getLsbD_hardwired]; simp, hardwired_eq_self v⟩

/-- Settles O48: both accesses select the same register, so GETB reads what SETB left there. -/
theorem setbThenGetbReturnsTheValueWritten : Obligations.SetbThenGetbReturnsTheValueWritten := by
  intro f g s hf hg
  rcases regOfSelect_cases f.idx with ⟨_, r, hr⟩ | ⟨hn, _⟩
  · have hset : exec (.setb f) s = .next (s.writeReg r f.data) := by simp [exec, execSetb, hr]
    have hget : exec (.getb g) (s.writeReg r f.data) =
        .next ((s.writeReg r f.data).returning (((s.writeReg r f.data).readReg r).setWidth 16)) := by
      simp [exec, execGetb, hg, hr]
    refine ⟨_, _, _, hset, hget, rfl, ?_⟩
    have hw (v : Byte) : (v.setWidth 16).toNat = v.toNat := BitVec.toNat_setWidth_of_le (by decide)
    have hs := eq_status_iff_of_regOfSelect f.idx r hr
    rw [hw, readReg_writeReg_same]
    constructor
    · intro h0; rw [if_neg (mt hs.mp h0)]
    · intro h0; rw [if_pos (hs.mpr h0)]
      exact ⟨BitVec.toNat_inj.trans (hardwired_eq_self_iff f.data), rfl⟩
  · omega

/-- Settles O49: the flag at the index, the violation at index 5, and bit 5 forced in the whole byte. -/
theorem getfReturnsTheIndexedFlag : Obligations.GetfReturnsTheIndexedFlag := by
  intro f s
  refine ⟨fun hn => ?_, execGetf_reserved f s, fun g hg => ?_⟩
  · rcases execGetf_cases f s with ⟨_, fl, hi, e⟩ | ⟨h5, _⟩
    · rw [exec, e, State.flag, hi, setWidth_ofBool]; rfl
    · exact absurd h5 hn
  · have hget : exec (.getb g) s = .next (s.returning ((hardwired s.p).setWidth 16)) := by
      rw [exec, execGetb, hg]; rfl
    refine ⟨_, _, hget, rfl, ?_⟩
    rw [BitVec.getLsbD_setWidth, getLsbD_hardwired]; simp

/-- Settles O50: the three cases of SETF are the three clauses. -/
theorem setfWritesTheIndexedFlagAlone : Obligations.SetfWritesTheIndexedFlagAlone := by
  intro f s
  refine ⟨fun hn hd => ?_, execSetf_reserved f s, fun hn hd => ?_⟩
  · rcases execSetf_cases f s with ⟨_, fl, b, hi, hb, e⟩ | ⟨_, hbig, _⟩ | ⟨h5, _⟩
    · refine ⟨s.setFlag fl b, e, rfl, ?_, fun k _ hk => ?_⟩
      · rw [setFlag_p, getLsbD_withFlag, hi, if_pos rfl, hb]; cases b <;> rfl
      · rw [setFlag_p, getLsbD_withFlag, hi, if_neg (by simpa using hk)]
    · omega
    · exact absurd h5 hn
  · rcases execSetf_cases f s with ⟨_, fl, b, _, hb, _⟩ | ⟨_, _, e⟩ | ⟨h5, _⟩
    · rw [hb] at hd; cases b <;> simp at hd
    · exact e
    · exact absurd h5 hn

/-! ## Who writes pc, the registers and the flags -/

/-- Settles O24: of the instructions outside R40's list each keeps `pc`. -/
theorem onlyControlTransfersAndSetpcWritePc : Obligations.OnlyControlTransfersAndSetpcWritePc := by
  intro i s t h hw
  cases i with
  | bcc op | bcs op | beq op | bne op | bmi op | bpl op | bvc op | bvs op | jmp op | jsr op | setpc f => cases hw
  | getb f => rcases execGetb_cases f s with ⟨_, r, _, e⟩ | ⟨_, e⟩ <;> (rw [exec, e] at h; cases h; rfl)
  | getf f => rcases execGetf_cases f s with ⟨_, fl, _, e⟩ | ⟨_, e⟩ <;> (rw [exec, e] at h; cases h; rfl)
  | setb f =>
    rcases execSetb_cases f s with ⟨_, r, _, e⟩ | ⟨_, e⟩
    · rw [exec, e] at h; cases h; exact writeReg_pc s r _
    · rw [exec, e] at h; cases h; rfl
  | setf f => rcases execSetf_cases f s with ⟨_, fl, b, _, _, e⟩ | ⟨_, _, e⟩ | ⟨_, e⟩ <;> (rw [exec, e] at h; cases h; rfl)
  | asl op => rcases execAsl_cases op s t h with ⟨_, rfl⟩ | ⟨_, rfl⟩ <;> rfl
  | lsr op => rcases execLsr_cases op s t h with ⟨_, rfl⟩ | ⟨_, rfl⟩ <;> rfl
  | _ => cases h; rfl

/-- Settles O26: SETB and the shifts write by their select and tag, every other instruction by its name. -/
theorem registersAreWrittenOnlyByTheirListedWriters : Obligations.RegistersAreWrittenOnlyByTheirListedWriters := by
  intro i s t h
  cases i with
  | getb f => rcases execGetb_cases f s with ⟨_, r, _, e⟩ | ⟨_, e⟩ <;> (rw [exec, e] at h; cases h; simp)
  | getf f => rcases execGetf_cases f s with ⟨_, fl, _, e⟩ | ⟨_, e⟩ <;> (rw [exec, e] at h; cases h; simp)
  | setb f =>
    rcases execSetb_cases f s with ⟨_, r, hr, e⟩ | ⟨_, e⟩
    · rw [exec, e] at h; cases h
      rcases regOfSelect_ok f.idx r hr with ⟨hi, rfl⟩ | ⟨hi, rfl⟩ | ⟨hi, rfl⟩ | ⟨hi, rfl⟩ | ⟨hi, rfl⟩ <;>
        simp [writesA, writesX, writesY, writesSp, hi]
    · rw [exec, e] at h; cases h; simp
  | setf f => rcases execSetf_cases f s with ⟨_, fl, b, _, _, e⟩ | ⟨_, _, e⟩ | ⟨_, e⟩ <;> (rw [exec, e] at h; cases h; simp)
  | asl op =>
    rcases execAsl_cases op s t h with ⟨hm, rfl⟩ | ⟨_, rfl⟩
    · simp [writesA, hm]
    · simp
  | lsr op =>
    rcases execLsr_cases op s t h with ⟨hm, rfl⟩ | ⟨_, rfl⟩
    · simp [writesA, hm]
    · simp
  | _ => cases h; simp [branch_eq, State.load, writesA, writesX, writesY, writesSp]

/-- Settles O27: `exec_keeps_flag` for each of the seven flags, its writer list read from `flagsWritten`. -/
theorem flagsAreWrittenOnlyByTheirListedWriters : Obligations.FlagsAreWrittenOnlyByTheirListedWriters := by
  intro i s t h
  have keeps (f : Flag) (hf : f ∉ flagsWritten i) (ha : accessWritesBit (flagIndex f) i = false) := exec_keeps_flag i s t h f hf ha
  refine ⟨fun hw => keeps .carry ?_, fun hw => keeps .zero ?_, fun hw => keeps .interruptDisable ?_,
    fun hw => keeps .decimal ?_, keeps .breakOnInterrupt (breakOnInterrupt_not_mem_flagsWritten i), fun hw => keeps .overflow ?_,
    fun hw => keeps .sign ?_⟩
  · simp [carry_mem_flagsWritten, hw]
  · simp [zero_mem_flagsWritten, hw]
  · simpa [interruptDisable_mem_flagsWritten] using hw
  · simpa [decimal_mem_flagsWritten] using hw
  · simp [overflow_mem_flagsWritten, hw]
  · simp [sign_mem_flagsWritten, hw]

/-! ## The two storage flags -/

/-- The state with one flag complemented. -/
def flipFlag (s : State) (f : Flag) : State := { s with p := s.p ^^^ BitVec.twoPow 8 (flagIndex f) }

/-- Complementing a flag changes its bit of P alone. -/
theorem getLsbD_flip (p : Byte) (f : Flag) (k : Nat) :
    (p ^^^ BitVec.twoPow 8 (flagIndex f)).getLsbD k = (p.getLsbD k ^^ decide (k = flagIndex f)) := by
  simp [BitVec.getLsbD_xor, BitVec.getLsbD_twoPow, flagIndex_lt, eq_comm]

/-- Every other flag reads as before. -/
theorem flipFlag_flag (s : State) (f g : Flag) (h : g ≠ f) : (flipFlag s f).flag g = s.flag g := by
  rw [State.flag, flipFlag, getLsbD_flip]; simp [State.flag, flagIndex_inj, h]

/-- Writing another flag leaves the same difference. -/
theorem flipFlag_setFlag (s : State) (f g : Flag) (b : Bool) (h : g ≠ f) :
    (flipFlag s f).setFlag g b = flipFlag (s.setFlag g b) f := by
  have hp : withFlag (s.p ^^^ BitVec.twoPow 8 (flagIndex f)) g b = withFlag s.p g b ^^^ BitVec.twoPow 8 (flagIndex f) := by
    apply BitVec.eq_of_getLsbD_eq; intro k _
    rw [getLsbD_flip, getLsbD_withFlag, getLsbD_withFlag, getLsbD_flip]
    by_cases hk : k = flagIndex g
    · simp [hk, flagIndex_inj, h]
    · simp [hk]
  exact congrArg (fun p => { s with p := p }) hp

/-- A register other than Status reads as before. -/
theorem flipFlag_readReg (s : State) (f : Flag) (r : Reg) (h : r ≠ .status) : (flipFlag s f).readReg r = s.readReg r := by
  cases r with
  | status => exact absurd rfl h
  | _ => rfl

/-- Writing a register other than Status leaves the same difference. -/
theorem flipFlag_writeReg (s : State) (f : Flag) (r : Reg) (v : Byte) (h : r ≠ .status) :
    (flipFlag s f).writeReg r v = flipFlag (s.writeReg r v) f := by
  cases r with
  | status => exact absurd rfl h
  | _ => rfl

/-- Sign and Zero written from a value leave a difference in any other flag. -/
theorem flipFlag_setSignZero (s : State) (f : Flag) (v : Byte) (hn : .sign ≠ f) (hz : .zero ≠ f) :
    (flipFlag s f).setSignZero v = flipFlag (s.setSignZero v) f := by
  simp only [State.setSignZero, flipFlag_setFlag _ _ _ _ hn, flipFlag_setFlag _ _ _ _ hz]

/-- A compare leaves a difference in a flag it does not write. -/
theorem flipFlag_compare (s : State) (f : Flag) (r m : Byte) (hc : .carry ≠ f) (hn : .sign ≠ f) (hz : .zero ≠ f) :
    (flipFlag s f).compare r m = flipFlag (s.compare r m) f := by
  simp only [State.compare, flipFlag_setFlag _ _ _ _ hc, flipFlag_setFlag _ _ _ _ hn, flipFlag_setFlag _ _ _ _ hz]

/-- A branch on the same condition leaves the difference. -/
theorem flipFlag_branch (s : State) (f : Flag) (cond : Bool) (op : ResolvedOperand) :
    (flipFlag s f).branch cond op = flipFlag (s.branch cond op) f := by cases cond <;> rfl

/-- A write-back of a shift leaves the difference. -/
theorem flipFlag_writeBack (s : State) (f : Flag) (op : ResolvedOperand) (r : Byte) :
    (flipFlag s f).writeBack op r = flipFlag (s.writeBack op r) f := by
  by_cases hm : op.mode = .accumulator
  · simp only [writeBack_accumulator _ op r hm]; rfl
  · simp only [writeBack_memory _ op r hm]; rfl

/-- A unit that does not write InterruptDisable or BreakOnInterrupt does the same in two states that differ in it alone, and leaves the
same difference: no unit reads it (10_state.md R32, R34). -/
theorem exec_flipFlag (i : Instr) (s t : State) (hu : isUnit i = true) (h : exec i s = .next t) (f : Flag)
    (hf : f = .interruptDisable ∨ f = .breakOnInterrupt) (hw : f ∉ flagsWritten i) :
    exec i (flipFlag s f) = .next (flipFlag t f) := by
  obtain ⟨hc, hz, hd, hv, hn⟩ : .carry ≠ f ∧ .zero ≠ f ∧ .decimal ≠ f ∧ .overflow ≠ f ∧ .sign ≠ f := by
    rcases hf with rfl | rfl <;> decide
  cases i with
  | getb f | setb f | getf f | setf f | getpc f | setpc f | rd f | wr f | push f | pop f => cases hu
  | adc op => cases h; simp [exec, execAdc, flipFlag_flag, flipFlag_readReg, flipFlag_setFlag, flipFlag_writeReg, hc, hz, hd, hv, hn]
  | and op => cases h; simp [exec, execAnd, flipFlag_readReg, flipFlag_setSignZero, flipFlag_writeReg, hz, hn]
  | asl op => cases h; simp [exec, execAsl, flipFlag_setFlag, flipFlag_setSignZero, flipFlag_writeBack, hc, hz, hn]
  | lsr op => cases h; simp [exec, execLsr, flipFlag_setFlag, flipFlag_setSignZero, flipFlag_writeBack, hc, hz, hn]
  | bcc op | bcs op => cases h; simp [exec, execBcc, execBcs, flipFlag_flag, flipFlag_branch, hc]
  | beq op | bne op => cases h; simp [exec, execBeq, execBne, flipFlag_flag, flipFlag_branch, hz]
  | bmi op | bpl op => cases h; simp [exec, execBmi, execBpl, flipFlag_flag, flipFlag_branch, hn]
  | bvc op | bvs op => cases h; simp [exec, execBvc, execBvs, flipFlag_flag, flipFlag_branch, hv]
  | cmp op | cpx op | cpy op =>
    cases h; simp [exec, execCmp, execCpx, execCpy, flipFlag_readReg, flipFlag_compare, hc, hz, hn]
  | bit op => cases h; simp [exec, execBit, flipFlag_readReg, flipFlag_setFlag, hz, hv, hn]
  | clc op => cases h; exact congrArg _ (flipFlag_setFlag s f .carry false hc)
  | cld op => cases h; exact congrArg _ (flipFlag_setFlag s f .decimal false hd)
  | cli op =>
    have hi : .interruptDisable ≠ f := by simpa [flagsWritten, eq_comm] using hw
    cases h; exact congrArg _ (flipFlag_setFlag s f .interruptDisable false hi)
  | clv op => cases h; exact congrArg _ (flipFlag_setFlag s f .overflow false hv)
  | jmp op | jsr op => cases h; rfl
  | lda op | ldx op | ldy op =>
    cases h; simp [exec, execLda, execLdx, execLdy, State.load, flipFlag_writeReg, flipFlag_setSignZero, hz, hn]

/-- Settles O29: `exec_flipFlag` for the two flags, bits 4 and 2 of P; no unit writes BreakOnInterrupt and only CLI writes
InterruptDisable. -/
theorem interruptAndBreakFlagsInfluenceNoUnit : Obligations.InterruptAndBreakFlagsInfluenceNoUnit := by
  intro i s t hu h
  refine ⟨exec_flipFlag i s t hu h .breakOnInterrupt (.inr rfl) (breakOnInterrupt_not_mem_flagsWritten i), fun hcli => ?_⟩
  have hw : .interruptDisable ∉ flagsWritten i := by simpa [interruptDisable_mem_flagsWritten] using hcli
  exact exec_flipFlag i s t hu h .interruptDisable (.inl rfl) hw

/-! ## The construction state -/

/-- Settles O10: every field by its definition; the bits of P are those of `hardwired` on 0. -/
theorem stateAfterResetIsAsTheSpecSays : Obligations.StateAfterResetIsAsTheSpecSays := by
  have hbits (k : Nat) : State.reset.p.getLsbD k = decide (k = 5) := by
    have hp : State.reset.p = hardwired 0#8 := rfl
    rw [hp, getLsbD_hardwired]; simp
  exact ⟨rfl, rfl, rfl, rfl, rfl, rfl, hbits, fun _ => rfl, rfl, rfl⟩

end Sys2Proof.Proofs
end

section
/-! PROOFS. The statements of 20_memory.md: the canonical form of memory (R60), who stores to which byte (R61, R64), one read and one
write (R62, R63), and the stack (R70 to R72). -/

namespace Sys2Proof.Proofs

open Sys2Proof Sys2Proof.Machine Sys2Proof.Claims

/-! ## The canonical form: the cells of a memory are told by its reads -/

/-- Among rising addresses a cell's address reads as the cell's byte. -/
theorem lookup_of_mem (m : Memory) (hr : List.Pairwise (fun c d => c.1 < d.1) m) (c : Host.Cell) (hc : c ∈ m) :
    Memory.lookup m c.1 = c.2 := by
  induction m with
  | nil => cases hc
  | cons d rest ih =>
    obtain ⟨hd, hrest⟩ := List.pairwise_cons.mp hr
    rcases List.mem_cons.mp hc with rfl | hc
    · exact if_pos rfl
    · exact (if_neg (hd c hc).ne).trans (ih hrest hc)

/-- An address that does not read as unlisted has a cell. -/
theorem mem_of_lookup_ne_unlisted (m : Memory) (n : Nat) (h : Memory.lookup m n ≠ Memory.unlisted) :
    (n, Memory.lookup m n) ∈ m := by
  induction m with
  | nil => exact absurd rfl h
  | cons d rest ih =>
    obtain ⟨k, b⟩ := d
    by_cases hk : k = n
    · simp [Memory.lookup, hk]
    · rw [Memory.lookup, if_neg hk] at h ⊢
      exact List.mem_cons_of_mem _ (ih h)

/-- The cells of a canonical memory are exactly the addresses of the address space that do not read as unlisted, each with the byte it
reads as. -/
theorem mem_iff_read (m : Memory) (hm : Memory.wf m) (c : Host.Cell) :
    c ∈ m ↔ c.2 ≠ Memory.unlisted ∧ c.1 < Config.memorySize ∧ Memory.read m (BitVec.ofNat 16 c.1) = c.2 := by
  obtain ⟨hrising, hcells⟩ := hm
  have hread (hlt : c.1 < Config.memorySize) : Memory.read m (BitVec.ofNat 16 c.1) = Memory.lookup m c.1 := by
    rw [Memory.read, BitVec.toNat_ofNat]; exact congrArg _ (Nat.mod_eq_of_lt hlt)
  constructor
  · intro hc
    obtain ⟨hne, hlt⟩ := hcells c hc
    exact ⟨hne, hlt, (hread hlt).trans (lookup_of_mem m hrising c hc)⟩
  · rintro ⟨hne, hlt, hv⟩
    have hl : Memory.lookup m c.1 = c.2 := (hread hlt).symm.trans hv
    rw [← hl] at hne
    simpa only [hl] using mem_of_lookup_ne_unlisted m c.1 hne

/-- Settles O21: by `mem_iff_read` the two memories have the same cells, and a rising list is determined by its members. -/
theorem canonicalMemoryIsDeterminedByItsReads : Obligations.CanonicalMemoryIsDeterminedByItsReads := by
  intro m1 m2 h1 h2 hread
  have hirrefl : Std.Irrefl (fun c d : Host.Cell => c.1 < d.1) := ⟨fun c => Nat.lt_irrefl c.1⟩
  have hasymm : Std.Asymm (fun c d : Host.Cell => c.1 < d.1) := ⟨fun _ _ => Nat.lt_asymm⟩
  obtain ⟨⟨hrising1, _⟩, ⟨hrising2, _⟩⟩ := And.intro h1 h2
  refine List.Pairwise.eq_of_mem_iff hrising1 hrising2 fun c => ?_
  rw [mem_iff_read m1 h1, mem_iff_read m2 h2, hread]

/-! ## Who stores to which byte -/

/-- A write-back of a shift stores to the effective address, and with the Accumulator tag nowhere (42_shift.md R170). -/
theorem writeBack_read (s : State) (op : ResolvedOperand) (r : Byte) (addr : Addr)
    (h : ¬(op.mode ≠ .accumulator ∧ addr = op.effectiveAddress)) : (s.writeBack op r).read addr = s.read addr := by
  by_cases hm : op.mode = .accumulator
  · rw [writeBack_accumulator s op r hm, writeReg_read]
  · rw [writeBack_memory s op r hm, State.read_write, if_neg fun ha => h ⟨hm, ha⟩]

/-- Settles O25: the storing instructions by what a write-back, a store or a push leaves, every other one because it keeps memory. -/
theorem onlyStoringInstructionsWriteMemory : Obligations.OnlyStoringInstructionsWriteMemory := by
  intro i s t addr h hs
  cases i with
  | getb f => rcases execGetb_cases f s with ⟨_, r, _, e⟩ | ⟨_, e⟩ <;> (rw [exec, e] at h; cases h; rfl)
  | getf f => rcases execGetf_cases f s with ⟨_, fl, _, e⟩ | ⟨_, e⟩ <;> (rw [exec, e] at h; cases h; rfl)
  | setb f =>
    rcases execSetb_cases f s with ⟨_, r, _, e⟩ | ⟨_, e⟩
    · rw [exec, e] at h; cases h; exact writeReg_read s r _ addr
    · rw [exec, e] at h; cases h; rfl
  | setf f => rcases execSetf_cases f s with ⟨_, fl, b, _, _, e⟩ | ⟨_, _, e⟩ | ⟨_, e⟩ <;> (rw [exec, e] at h; cases h; rfl)
  | asl op | lsr op => cases h; exact writeBack_read _ op _ addr (of_decide_eq_false hs)
  | jsr op =>
    obtain ⟨hhigh, hlow⟩ : addr ≠ stackAddr s.sp ∧ addr ≠ stackAddr (s.sp - 1) := by simpa [storesTo] using hs
    cases h
    rw [writePc_read, State.read_push, push_sp, if_neg hlow, State.read_push, if_neg hhigh]
  | wr f =>
    have hne : addr ≠ f.addr := by simpa [storesTo] using hs
    cases h; simp [hne]
  | push f =>
    have hne : addr ≠ stackAddr s.sp := by simpa [storesTo] using hs
    cases h; simp [hne]
  | bcc op | bcs op | beq op | bne op | bmi op | bpl op | bvc op | bvs op => cases h; rw [branch_eq]; rfl
  | _ => cases h; rfl

/-! ## One read and one write -/

/-- A byte returned on the 16-bit output keeps its value (30_encoding.md R98). -/
theorem toNat_returned (v : Byte) : (v.setWidth 16).toNat = v.toNat := BitVec.toNat_setWidth_of_le (by decide)

/-- Settles O53: RD is `State.returning` of the byte read. -/
theorem rdReturnsTheByteAndChangesNothing : Obligations.RdReturnsTheByteAndChangesNothing := fun f s =>
  ⟨_, _, rfl, rfl, toNat_returned (s.read f.addr)⟩

/-- Settles O54: what a store leaves at its own address and at another, and O53 for the later RD. -/
theorem wrStoresTheByteAndNothingElse : Obligations.WrStoresTheByteAndNothingElse := by
  intro f s
  have hsame : (s.write f.addr f.data).read f.addr = f.data := by simp
  refine ⟨s.write f.addr f.data, rfl, rfl, hsame, fun addr hne => by simp [hne], fun g hg => ?_⟩
  obtain ⟨u, v, hrd, hu, hv⟩ := rdReturnsTheByteAndChangesNothing g (s.write f.addr f.data)
  rw [hg, hsame] at hv
  exact ⟨u, v, hrd, congrArg State.rdata hu, hv⟩

/-! ## The stack -/

/-- Settles O55: PUSH is `State.push`, and 255 more is one less modulo 256. -/
theorem pushStoresThenDecrements : Obligations.PushStoresThenDecrements := by
  intro f s
  have hsp : (s.sp - 1).toNat = (s.sp.toNat + 255) % 256 := by
    rw [BitVec.toNat_sub, Nat.add_comm]; rfl
  exact ⟨s.push f.data, rfl, stackAddr_toNat s.sp, by simp, fun addr hne => by simp [hne], hsp, rfl⟩

/-- Settles O56: POP is `State.popped` returning `State.popValue`. -/
theorem popIncrementsThenReads : Obligations.PopIncrementsThenReads := by
  intro f s
  have hsp : (s.sp + 1).toNat = (s.sp.toNat + 1) % 256 := BitVec.toNat_add s.sp 1
  have haddr : (stackAddr (s.sp + 1)).toNat = 256 + (s.sp.toNat + 1) % 256 := by rw [stackAddr_toNat, hsp]
  exact ⟨_, _, rfl, hsp, haddr, toNat_returned s.popValue, rfl⟩

/-- POP right after a push takes the byte pushed. -/
theorem popValue_push (s : State) (v : Byte) : (s.push v).popValue = v := by
  simp [State.popValue]

/-- Settles O57: `popValue_push`, and the increment undoes the decrement. -/
theorem pushThenPopReturnsTheValue : Obligations.PushThenPopReturnsTheValue := by
  intro f g s
  refine ⟨s.push f.data, _, _, rfl, rfl, BitVec.sub_add_cancel s.sp 1, rfl, ?_, rfl⟩
  rw [toNat_returned, popValue_push]

/-! ## Many pushes in a row -/

/-- Pushing a list of values is the push of each in turn. -/
theorem pushAll_eq_foldl (vs : List Byte) (s : State) : pushAll vs s = .next (vs.foldl State.push s) := by
  induction vs generalizing s with
  | nil => rfl
  | cons v rest ih => exact ih (s.push v)

/-- One more push takes SP one further down. -/
theorem sub_one_sub_ofNat (sp : Byte) (n : Nat) : sp - 1 - BitVec.ofNat 8 n = sp - BitVec.ofNat 8 (n + 1) := by
  rw [BitVec.ofNat_add, BitVec.sub_sub, BitVec.add_comm]; rfl

/-- Pushes change memory and take SP down by their number, and change nothing else. -/
theorem foldl_push_eq (vs : List Byte) (s : State) :
    vs.foldl State.push s = { s with mem := (vs.foldl State.push s).mem, sp := s.sp - BitVec.ofNat 8 vs.length } := by
  induction vs generalizing s with
  | nil => simp
  | cons v rest ih =>
    have h := ih (s.push v)
    rw [push_sp, sub_one_sub_ofNat] at h
    exact h

/-- Pushes keep every byte that none of them stores to. -/
theorem foldl_push_read_of_ne (vs : List Byte) (s : State) (addr : Addr)
    (h : ∀ k < vs.length, addr ≠ stackAddr (s.sp - BitVec.ofNat 8 k)) :
    (vs.foldl State.push s).read addr = s.read addr := by
  induction vs generalizing s with
  | nil => rfl
  | cons v rest ih =>
    have hfirst : addr ≠ stackAddr s.sp := by simpa using h 0 (by simp)
    have hrest : ∀ k < rest.length, addr ≠ stackAddr ((s.push v).sp - BitVec.ofNat 8 k) := fun k hk => by
      rw [push_sp, sub_one_sub_ofNat]; exact h (k + 1) (by simpa using hk)
    rw [List.foldl_cons, ih (s.push v) hrest, State.read_push, if_neg hfirst]

/-- Two stack pointers with the same stack byte are equal. -/
theorem stackAddr_inj (sp sp' : Byte) (h : stackAddr sp = stackAddr sp') : sp = sp' := by
  have h := congrArg BitVec.toNat h
  rw [stackAddr_toNat, stackAddr_toNat] at h
  exact BitVec.eq_of_toNat_eq (Nat.add_left_cancel h)

/-- A stack pointer comes back to its stack byte after 256 pushes and no sooner. -/
theorem stackAddr_ne_of_lt (sp : Byte) (k : Nat) (hk : k < 255) : stackAddr sp ≠ stackAddr (sp - 1 - BitVec.ofNat 8 k) := by
  intro h
  have h := stackAddr_inj _ _ h
  bv_omega

/-- Of at most 256 pushes each value stays where it was pushed: no later push comes back to its byte. -/
theorem foldl_push_read (vs : List Byte) (s : State) (hlen : vs.length ≤ 256) (n : Nat) (hn : n < vs.length) :
    (vs.foldl State.push s).read (stackAddr (s.sp - BitVec.ofNat 8 n)) = vs[n] := by
  induction vs generalizing s n with
  | nil => cases hn
  | cons v rest ih =>
    rw [List.length_cons] at hlen hn
    cases n with
    | zero =>
      have hlater : ∀ k < rest.length, stackAddr s.sp ≠ stackAddr ((s.push v).sp - BitVec.ofNat 8 k) := fun k hk =>
        stackAddr_ne_of_lt s.sp k (by omega)
      simpa using foldl_push_read_of_ne rest (s.push v) (stackAddr s.sp) hlater
    | succ n =>
      have h := ih (s.push v) (by omega) n (by omega)
      rwa [push_sp, sub_one_sub_ofNat] at h

/-- The stack byte of the n-th push as 20_memory.md R72 writes it. -/
theorem stackAddr_sub_ofNat (sp : Byte) (n : Nat) (hn : n < 256) :
    stackAddr (sp - BitVec.ofNat 8 n) = BitVec.ofNat 16 (256 + (sp.toNat + 256 - n) % 256) := by
  have hsp := sp.isLt
  apply BitVec.eq_of_toNat_eq
  rw [stackAddr_toNat, BitVec.toNat_sub, BitVec.toNat_ofNat, BitVec.toNat_ofNat]
  omega

/-- Settles O58: `foldl_push_eq` with 256 = 0 modulo 256, `foldl_push_read` in the page, and outside it the frame. -/
theorem twoHundredFiftySixPushesOverwriteTheStackPage : Obligations.TwoHundredFiftySixPushesOverwriteTheStackPage := by
  intro vs s hlen
  refine ⟨vs.foldl State.push s, pushAll_eq_foldl vs s, ?_, fun n hn => ?_, fun addr hout => ?_⟩
  · have h := foldl_push_eq vs s
    rwa [hlen, show s.sp - BitVec.ofNat 8 256 = s.sp from BitVec.sub_zero s.sp] at h
  · rw [← stackAddr_sub_ofNat s.sp n (by omega)]
    exact foldl_push_read vs s hlen.le n hn
  · refine foldl_push_read_of_ne vs s addr fun k _ heq => ?_
    have hin := stackAddr_toNat (s.sp - BitVec.ofNat 8 k)
    rw [← heq] at hin
    omega

end Sys2Proof.Proofs
end

section
/-! PROOFS. The statements of 30_encoding.md: the two words' codecs (R91 to R93, R98, R99, R105), illegal words and selects (R102), legal
pairs of unit and tag (R97), and the fields a word carries but its operation does not read (R96, R99). -/

namespace Sys2Proof.Proofs

open Sys2Proof Sys2Proof.Machine Sys2Proof.Claims

/-- What two tables agree on, entry by entry: `f` along a list is `g` along its positions. -/
theorem apply_eq_of_map_eq_map_range {α β : Type} {l : List α} {f : α → β} {g : Nat → β} {k : Nat}
    (h : l.map f = (List.range k).map g) {n : Nat} {a : α} (ha : l[n]? = some a) : f a = g n := by
  have hf : (l.map f)[n]? = some (f a) := by rw [List.getElem?_map, ha, Option.map_some]
  rw [h, List.getElem?_map] at hf
  obtain ⟨j, hj, he⟩ := Option.map_eq_some_iff.mp hf
  obtain ⟨_, rfl⟩ := List.getElem?_eq_some_iff.mp hj
  rw [List.getElem_range] at he
  exact he.symm

/-! ## The codec of the command port -/

/-- A command word whose unit and mode codes are assigned decodes to that unit on its operand fields (30_encoding.md R105). -/
theorem decodeCommand_of_codes (cw : CommandWord) (u : ResolvedOperand → Instr) (m : Mode)
    (hu : unitOfCode (unitField cw) = some u) (hm : modeOfCode (modeField cw) = some m) :
    decodeCommand cw = .ok (u ⟨m, operandValueField cw, effectiveAddressField cw⟩) := by
  simp only [decodeCommand, hu, hm]

/-- What a command word that decodes decodes to. -/
theorem decodeCommand_ok (cw : CommandWord) (i : Instr) (h : decodeCommand cw = .ok i) :
    ∃ u m, unitOfCode (unitField cw) = some u ∧ modeOfCode (modeField cw) = some m ∧
      i = u ⟨m, operandValueField cw, effectiveAddressField cw⟩ := by
  cases hu : unitOfCode (unitField cw) with
  | none => simp [decodeCommand, hu] at h
  | some u =>
    cases hm : modeOfCode (modeField cw) with
    | none => simp [decodeCommand, hu, hm] at h
    | some m => exact ⟨u, m, rfl, rfl, Except.ok.inj (h.symm.trans (decodeCommand_of_codes cw u m hu hm))⟩

/-- The word put together for an assigned unit decodes to that unit, with the operand unchanged. -/
theorem decodeTransaction_commandWord (code : BitVec 5) (op : ResolvedOperand) (u : ResolvedOperand → Instr)
    (hu : unitOfCode code = some u) : decodeTransaction (.command (commandWord code op)) = some (.ok (u op)) := by
  have h := decodeCommand_of_codes (commandWord code op) u op.mode (by simpa using hu) (by simp)
  simpa [decodeTransaction] using h

/-- The encoder gives the units their codes in the order of the table of R92. -/
theorem encode_unitTable (op : ResolvedOperand) :
    unitTable.map (fun u => encode (u op)) = (List.range 25).map (fun n => .command (commandWord (BitVec.ofNat 5 n) op)) := rfl

/-- The encoder gives a unit the code the decoder reads it from. -/
theorem encode_of_unitOfCode (code : BitVec 5) (u : ResolvedOperand → Instr) (op : ResolvedOperand)
    (hu : unitOfCode code = some u) : encode (u op) = .command (commandWord code op) := by
  have h := apply_eq_of_map_eq_map_range (encode_unitTable op) hu
  rwa [BitVec.ofNat_toNat, BitVec.setWidth_eq] at h

/-! ## The codec of the access port -/

/-- An access word whose operation code is assigned decodes to that operation on its fields (R98, R99). -/
theorem decodeAccess_of_code (aw : AccessWord) (o : AccessFields → Instr) (ho : accessOfCode (accessOpField aw) = some o) :
    decodeAccess aw = .ok (o (accessFields aw)) := by
  simp only [decodeAccess, ho]

/-- What an access word that decodes decodes to. -/
theorem decodeAccess_ok (aw : AccessWord) (i : Instr) (h : decodeAccess aw = .ok i) :
    ∃ o, accessOfCode (accessOpField aw) = some o ∧ i = o (accessFields aw) := by
  cases ho : accessOfCode (accessOpField aw) with
  | none => simp [decodeAccess, ho] at h
  | some o => exact ⟨o, rfl, Except.ok.inj (h.symm.trans (decodeAccess_of_code aw o ho))⟩

/-- The word put together for an assigned operation decodes to that operation, with the fields unchanged. -/
theorem decodeTransaction_accessWord (code : BitVec 4) (f : AccessFields) (o : AccessFields → Instr)
    (ho : accessOfCode code = some o) : decodeTransaction (.access (accessWord code f)) = some (.ok (o f)) := by
  have h := decodeAccess_of_code (accessWord code f) o (by simpa using ho)
  simpa [decodeTransaction] using h

/-- The encoder gives the access operations their codes in the order of the table of R99. -/
theorem encode_accessTable (f : AccessFields) :
    accessTable.map (fun o => encode (o f)) = (List.range 10).map (fun n => .access (accessWord (BitVec.ofNat 4 n) f)) := rfl

/-- The encoder gives an access operation the code the decoder reads it from. -/
theorem encode_of_accessOfCode (code : BitVec 4) (o : AccessFields → Instr) (f : AccessFields)
    (ho : accessOfCode code = some o) : encode (o f) = .access (accessWord code f) := by
  have h := apply_eq_of_map_eq_map_range (encode_accessTable f) ho
  rwa [BitVec.ofNat_toNat, BitVec.setWidth_eq] at h

/-! ## Decoding and encoding undo each other -/

/-- Settles O1: each word is put together from its own fields, and the code the encoder gives is the table's. -/
theorem decodeGivesBackEveryEncodedInstruction : Obligations.DecodeGivesBackEveryEncodedInstruction := by
  intro i
  cases i with
  | adc op | and op | asl op | lsr op | bcc op | bcs op | beq op | bne op | bmi op | bpl op | bvc op | bvs op | cmp op | cpx op
  | cpy op | bit op | clc op | cld op | cli op | clv op | jmp op | jsr op | lda op | ldx op | ldy op =>
    exact decodeTransaction_commandWord _ op _ rfl
  | getb f | setb f | getf f | setf f | getpc f | setpc f | rd f | wr f | push f | pop f =>
    exact decodeTransaction_accessWord _ f _ rfl

/-- Settles O2: the encoder gives back the code that was read, and the fields of a word make up the whole word. -/
theorem encodeGivesBackEveryDecodedWord : Obligations.EncodeGivesBackEveryDecodedWord := by
  intro w i h
  cases w with
  | reset => cases h
  | command cw =>
    obtain ⟨u, m, hu, hm, rfl⟩ := decodeCommand_ok cw i (Option.some.inj h)
    rw [encode_of_unitOfCode _ u _ hu, commandWord_fields cw m hm]
  | access aw =>
    obtain ⟨o, ho, rfl⟩ := decodeAccess_ok aw i (Option.some.inj h)
    rw [encode_of_accessOfCode _ o _ ho, accessWord_fields aw]

/-! ## Decoding by the numbers a word's fields hold -/

/-- The unit codes 0 to 24 are assigned (R92). -/
theorem exists_unit_of_le (n : Nat) (h : n ≤ 24) : ∃ u, unitsInOrder[n]? = some u :=
  ⟨_, List.getElem?_eq_getElem (Nat.lt_succ_of_le h)⟩

/-- The mode codes 0 to 10 are assigned (R93). -/
theorem exists_tag_of_le (n : Nat) (h : n ≤ 10) : ∃ m, tagsInOrder[n]? = some m :=
  ⟨_, List.getElem?_eq_getElem (Nat.lt_succ_of_le h)⟩

/-- The access codes 0 to 9 are assigned (R99). -/
theorem exists_access_of_le (n : Nat) (h : n ≤ 9) : ∃ o, accessesInOrder[n]? = some o :=
  ⟨_, List.getElem?_eq_getElem (Nat.lt_succ_of_le h)⟩

/-- The unit a command word's number names is the one its unit code stands for. -/
theorem unitOfCode_unitField (cw : CommandWord) : unitOfCode (unitField cw) = unitsInOrder[cw.toNat / 2 ^ 28]? := by
  rw [unitOfCode, unitField_toNat]; rfl

/-- The tag a command word's number names is the one its mode code stands for. -/
theorem modeOfCode_modeField (cw : CommandWord) : modeOfCode (modeField cw) = tagsInOrder[cw.toNat / 2 ^ 24 % 16]? := by
  rw [modeOfCode, modeField_toNat]; rfl

/-- The operation an access word's number names is the one its code stands for. -/
theorem accessOfCode_accessOpField (aw : AccessWord) :
    accessOfCode (accessOpField aw) = accessesInOrder[aw.toNat / 2 ^ 27]? := by
  rw [accessOfCode, accessOpField_toNat]; rfl

/-- A unit code above 24 is cause 4, whatever the mode (R102, R105). -/
theorem decodeCommand_invalidUnit (cw : CommandWord) (h : 24 < cw.toNat / 2 ^ 28) :
    decodeCommand cw = .error .invalidUnitSelect := by
  have hu : unitOfCode (unitField cw) = none := by rw [unitOfCode_unitField]; exact List.getElem?_eq_none h
  simp only [decodeCommand, hu]

/-- After an assigned unit, a mode code above 10 is cause 5 (R102, R105). -/
theorem decodeCommand_invalidMode (cw : CommandWord) (hle : cw.toNat / 2 ^ 28 ≤ 24) (hgt : 10 < cw.toNat / 2 ^ 24 % 16) :
    decodeCommand cw = .error .invalidModeTag := by
  obtain ⟨u, hu⟩ := exists_unit_of_le _ hle
  have hm : modeOfCode (modeField cw) = none := by rw [modeOfCode_modeField]; exact List.getElem?_eq_none hgt
  rw [← unitOfCode_unitField] at hu
  simp only [decodeCommand, hu, hm]

/-- Assigned codes decode to their unit and tag, with the operand fields as numbers (R91 to R93). -/
theorem decodeCommand_of_numbers (cw : CommandWord) (u : ResolvedOperand → Instr) (m : Mode)
    (hu : unitsInOrder[cw.toNat / 2 ^ 28]? = some u) (hm : tagsInOrder[cw.toNat / 2 ^ 24 % 16]? = some m) :
    decodeCommand cw = .ok (u
      { mode := m
        operandValue := BitVec.ofNat 8 (cw.toNat / 2 ^ 16 % 256)
        effectiveAddress := BitVec.ofNat 16 (cw.toNat % 65536) }) := by
  rw [← operandValueField_eq, ← effectiveAddressField_eq]
  exact decodeCommand_of_codes cw u m (by rw [unitOfCode_unitField, hu]) (by rw [modeOfCode_modeField, hm])

/-- An operation code above 9 is cause 6 (R102). -/
theorem decodeAccess_invalidOp (aw : AccessWord) (h : 9 < aw.toNat / 2 ^ 27) : decodeAccess aw = .error .invalidAccessOp := by
  have ho : accessOfCode (accessOpField aw) = none := by rw [accessOfCode_accessOpField]; exact List.getElem?_eq_none h
  simp only [decodeAccess, ho]

/-- An assigned code decodes to its operation, with the fields as numbers (R98, R99). -/
theorem decodeAccess_of_numbers (aw : AccessWord) (o : AccessFields → Instr)
    (ho : accessesInOrder[aw.toNat / 2 ^ 27]? = some o) :
    decodeAccess aw = .ok (o
      { idx := BitVec.ofNat 3 (aw.toNat / 2 ^ 24 % 8)
        data := BitVec.ofNat 8 (aw.toNat / 2 ^ 16 % 256)
        addr := BitVec.ofNat 16 (aw.toNat % 65536) }) := by
  rw [← accessFields_eq]
  exact decodeAccess_of_code aw o (by rw [accessOfCode_accessOpField, ho])

/-- Settles O3: the two violations, and the decoded unit with its fields read as numbers. -/
theorem commandWordDecodesByItsFields : Obligations.CommandWordDecodesByItsFields :=
  fun cw => ⟨decodeCommand_invalidUnit cw, decodeCommand_invalidMode cw, decodeCommand_of_numbers cw⟩

/-- Settles O4: the violation, and the decoded operation with its fields read as numbers. -/
theorem accessWordDecodesByItsFields : Obligations.AccessWordDecodesByItsFields :=
  fun aw => ⟨decodeAccess_invalidOp aw, decodeAccess_of_numbers aw⟩

/-! ## Illegal words and selects -/

/-- Settles O7: `step_illegal` for each of the three violations of the decoder. -/
theorem illegalWordHaltsAndWritesNothingElse : Obligations.IllegalWordHaltsAndWritesNothingElse := by
  intro s rest hh
  refine ⟨fun cw hp hu => ?_, fun cw hp hu hm => ?_, fun aw hp ho => ?_⟩
  · exact step_illegal s _ rest _ hp (congrArg some (decodeCommand_invalidUnit cw hu)) hh
  · exact step_illegal s _ rest _ hp (congrArg some (decodeCommand_invalidMode cw hu hm)) hh
  · exact step_illegal s _ rest _ hp (congrArg some (decodeAccess_invalidOp aw ho)) hh

/-- Settles O51: no register has a select above 4, so both accesses raise. -/
theorem invalidRegisterSelectHaltsWithCause3 : Obligations.InvalidRegisterSelectHaltsWithCause3 := by
  intro f s h
  constructor
  · rcases execGetb_cases f s with ⟨hle, _⟩ | ⟨_, e⟩
    · omega
    · exact e
  · rcases execSetb_cases f s with ⟨hle, _⟩ | ⟨_, e⟩
    · omega
    · exact e

/-! ## Every pair of unit and tag executes -/

/-- No execution unit touches the halt latch (60_exceptions.md R290). -/
theorem exec_unit_halted (i : Instr) (s t : State) (hu : isUnit i = true) (h : exec i s = .next t) : t.halted = s.halted := by
  cases i with
  | getb f | setb f | getf f | setf f | getpc f | setpc f | rd f | wr f | push f | pop f => cases hu
  | asl op => rcases execAsl_cases op s t h with ⟨_, rfl⟩ | ⟨_, rfl⟩ <;> rfl
  | lsr op => rcases execLsr_cases op s t h with ⟨_, rfl⟩ | ⟨_, rfl⟩ <;> rfl
  | bcc op | bcs op | beq op | bne op | bmi op | bpl op | bvc op | bvs op => cases h; rw [branch_eq]
  | _ => cases h; rfl

/-- The units of the table of R92 are execution units. -/
theorem isUnit_of_mem_unitsInOrder : ∀ u ∈ unitsInOrder, ∀ op, isUnit (u op) = true := by
  simp [unitsInOrder, isUnit]

/-- Settles O23: both codes are assigned, so the word decodes to a unit, and no unit halts the block. -/
theorem everyUnitAndTagPairExecutes : Obligations.EveryUnitAndTagPairExecutes := by
  intro s cw rest hp hh hule hmle
  obtain ⟨u, hu⟩ := exists_unit_of_le _ hule
  obtain ⟨m, hm⟩ := exists_tag_of_le _ hmle
  have hmem := List.mem_of_getElem? hu
  have hd := decodeCommand_of_numbers cw u m hu hm
  have hs := step_decoded s _ rest _ hp (congrArg some hd) hh
  obtain ⟨t, ht⟩ := exec_next (u _) (s.accept rest)
  have hkeep := exec_unit_halted _ _ t (isUnit_of_mem_unitsInOrder u hmem _) ht
  exact ⟨u, _, t, hmem, hd, hs.trans ht, ht, hkeep.trans hh⟩

/-! ## The fields a unit or an operation reads -/

/-- Two words whose instructions have one effect give the same step, on a running block and on a halted one. -/
theorem step_congr_of_exec (s : State) (w1 w2 : Transaction) (rest : List Transaction) (i1 i2 : Instr)
    (h1 : decodeTransaction w1 = some (.ok i1)) (h2 : decodeTransaction w2 = some (.ok i2))
    (he : ∀ t, exec i1 t = exec i2 t) :
    step { s with pending := w1 :: rest } = step { s with pending := w2 :: rest } := by
  obtain hh | hh := Bool.eq_false_or_eq_true s.halted
  · exact (step_ignored { s with pending := w1 :: rest } w1 rest _ rfl h1 hh).trans
      (step_ignored { s with pending := w2 :: rest } w2 rest _ rfl h2 hh).symm
  · exact (step_decoded { s with pending := w1 :: rest } w1 rest i1 rfl h1 hh).trans
      ((he _).trans (step_decoded { s with pending := w2 :: rest } w2 rest i2 rfl h2 hh).symm)

/-- ADC, AND, the compares, BIT and the loads read the operand value alone (R96). -/
theorem exec_congr_operandValue : ∀ u ∈ [Instr.adc, .and, .cmp, .cpx, .cpy, .bit, .lda, .ldx, .ldy],
    ∀ op1 op2 s, op1.operandValue = op2.operandValue → exec (u op1) s = exec (u op2) s := by
  intro u hu op1 op2 s hv
  simp only [List.mem_cons, List.not_mem_nil, or_false] at hu
  rcases hu with rfl | rfl | rfl | rfl | rfl | rfl | rfl | rfl | rfl <;>
    simp only [exec, execAdc, execAnd, execCmp, execCpx, execCpy, execBit, execLda, execLdx, execLdy, hv]

/-- The flag clears read no field (R96). -/
theorem exec_congr_of_flagClear : ∀ u ∈ [Instr.clc, .cld, .cli, .clv], ∀ op1 op2 s, exec (u op1) s = exec (u op2) s := by
  intro u hu op1 op2 s
  simp only [List.mem_cons, List.not_mem_nil, or_false] at hu
  rcases hu with rfl | rfl | rfl | rfl <;> rfl

/-- The branches, JMP and JSR read the effective address alone (R96). -/
theorem exec_congr_effectiveAddress :
    ∀ u ∈ [Instr.bcc, .bcs, .beq, .bne, .bmi, .bpl, .bvc, .bvs, .jmp, .jsr],
      ∀ op1 op2 s, op1.effectiveAddress = op2.effectiveAddress → exec (u op1) s = exec (u op2) s := by
  intro u hu op1 op2 s ha
  simp only [List.mem_cons, List.not_mem_nil, or_false] at hu
  rcases hu with rfl | rfl | rfl | rfl | rfl | rfl | rfl | rfl | rfl | rfl <;>
    simp only [exec, execBcc, execBcs, execBeq, execBne, execBmi, execBpl, execBvc, execBvs, execJmp, execJsr, branch_eq, ha]

/-- With the Accumulator tag the shifts read the operand value alone (R96). -/
theorem exec_congr_of_shift_accumulator : ∀ u ∈ [Instr.asl, .lsr],
    ∀ op1 op2 s, op1.mode = .accumulator → op2.mode = .accumulator → op1.operandValue = op2.operandValue →
      exec (u op1) s = exec (u op2) s := by
  intro u hu op1 op2 s h1 h2 hv
  simp only [List.mem_cons, List.not_mem_nil, or_false] at hu
  rcases hu with rfl | rfl
  · simp only [exec, execAsl, writeBack_accumulator _ _ _ h1, writeBack_accumulator _ _ _ h2, hv]
  · simp only [exec, execLsr, writeBack_accumulator _ _ _ h1, writeBack_accumulator _ _ _ h2, hv]

/-- Settles O30: the two words decode to one unit, which reads only fields the words agree in. -/
theorem commandFieldsAUnitIgnoresHaveNoEffect : Obligations.CommandFieldsAUnitIgnoresHaveNoEffect := by
  intro s c1 c2 rest hunit hle1 hle2 hagree
  have hle : c1.toNat / 2 ^ 28 ≤ 24 := by
    simp only [List.mem_cons, List.not_mem_nil, or_false] at hagree; omega
  obtain ⟨u, hu1⟩ := exists_unit_of_le _ hle
  have hu2 := hunit ▸ hu1
  obtain ⟨m1, hm1⟩ := exists_tag_of_le _ hle1
  obtain ⟨m2, hm2⟩ := exists_tag_of_le _ hle2
  have hd1 := decodeCommand_of_numbers c1 u m1 hu1 hm1
  have hd2 := decodeCommand_of_numbers c2 u m2 hu2 hm2
  refine step_congr_of_exec s _ _ rest _ _ (congrArg some hd1) (congrArg some hd2) fun t => ?_
  have u_mem {codes : List Nat} (h : c1.toNat / 2 ^ 28 ∈ codes) : u ∈ codes.filterMap (unitsInOrder[·]?) :=
    List.mem_filterMap.mpr ⟨_, h, hu1⟩
  rcases hagree with ⟨hcode, hv⟩ | hcode | ⟨hcode, ha⟩ | ⟨hcode, hacc1, hacc2, hv⟩
  · exact exec_congr_operandValue u (u_mem hcode) _ _ t (congrArg (BitVec.ofNat 8) hv)
  · exact exec_congr_of_flagClear u (u_mem hcode) _ _ t
  · exact exec_congr_effectiveAddress u (u_mem hcode) _ _ t (congrArg (BitVec.ofNat 16) ha)
  · rw [hacc1] at hm1
    rw [hacc2] at hm2
    exact exec_congr_of_shift_accumulator u (u_mem hcode) _ _ t (Option.some.inj hm1).symm (Option.some.inj hm2).symm
      (congrArg (BitVec.ofNat 8) hv)

/-- GETB and GETF read the index alone (R99). -/
theorem exec_congr_idx : ∀ o ∈ [Instr.getb, .getf], ∀ f1 f2 s, f1.idx = f2.idx → exec (o f1) s = exec (o f2) s := by
  intro o ho f1 f2 s hi
  simp only [List.mem_cons, List.not_mem_nil, or_false] at ho
  rcases ho with rfl | rfl
  · simp only [exec, execGetb, hi]
  · simp only [exec, execGetf, hi]

/-- SETB and SETF read the index and the data (R99). -/
theorem exec_congr_idx_data : ∀ o ∈ [Instr.setb, .setf],
    ∀ f1 f2 s, f1.idx = f2.idx → f1.data = f2.data → exec (o f1) s = exec (o f2) s := by
  intro o ho f1 f2 s hi hd
  simp only [List.mem_cons, List.not_mem_nil, or_false] at ho
  rcases ho with rfl | rfl
  · simp only [exec, execSetb, hi, hd]
  · simp only [exec, execSetf, hi, hd]

/-- SETPC and RD read the address alone (R99). -/
theorem exec_congr_addr : ∀ o ∈ [Instr.setpc, .rd], ∀ f1 f2 s, f1.addr = f2.addr → exec (o f1) s = exec (o f2) s := by
  intro o ho f1 f2 s ha
  simp only [List.mem_cons, List.not_mem_nil, or_false] at ho
  rcases ho with rfl | rfl
  · simp only [exec, execSetpc, ha]
  · simp only [exec, execRd, ha]

/-- GETPC and POP read no field (R99). -/
theorem exec_congr_of_fieldless : ∀ o ∈ [Instr.getpc, .pop], ∀ f1 f2 s, exec (o f1) s = exec (o f2) s := by
  intro o ho f1 f2 s
  simp only [List.mem_cons, List.not_mem_nil, or_false] at ho
  rcases ho with rfl | rfl <;> rfl

/-- WR reads the data and the address (R99). -/
theorem exec_wr_congr (f1 f2 : AccessFields) (s : State) (hd : f1.data = f2.data) (ha : f1.addr = f2.addr) :
    exec (.wr f1) s = exec (.wr f2) s := by simp only [exec, execWr, hd, ha]

/-- PUSH reads the data alone (R99). -/
theorem exec_push_congr (f1 f2 : AccessFields) (s : State) (hd : f1.data = f2.data) :
    exec (.push f1) s = exec (.push f2) s := by simp only [exec, execPush, hd]

/-- Settles O31: the two words decode to one operation, which reads only fields the words agree in. -/
theorem accessFieldsAnOperationIgnoresHaveNoEffect : Obligations.AccessFieldsAnOperationIgnoresHaveNoEffect := by
  intro s w1 w2 rest hop hagree
  have hle : w1.toNat / 2 ^ 27 ≤ 9 := by
    simp only [List.mem_cons, List.not_mem_nil, or_false] at hagree; omega
  obtain ⟨o, ho1⟩ := exists_access_of_le _ hle
  have ho2 := hop ▸ ho1
  have hd1 := decodeAccess_of_numbers w1 o ho1
  have hd2 := decodeAccess_of_numbers w2 o ho2
  refine step_congr_of_exec s _ _ rest _ _ (congrArg some hd1) (congrArg some hd2) fun t => ?_
  have o_mem {codes : List Nat} (h : w1.toNat / 2 ^ 27 ∈ codes) : o ∈ codes.filterMap (accessesInOrder[·]?) :=
    List.mem_filterMap.mpr ⟨_, h, ho1⟩
  rcases hagree with ⟨hcode, hi⟩ | ⟨hcode, hi, hd⟩ | hcode | ⟨hcode, ha⟩ | ⟨hcode, hd, ha⟩ | ⟨hcode, hd⟩
  · exact exec_congr_idx o (o_mem hcode) _ _ t (congrArg (BitVec.ofNat 3) hi)
  · exact exec_congr_idx_data o (o_mem hcode) _ _ t (congrArg (BitVec.ofNat 3) hi) (congrArg (BitVec.ofNat 8) hd)
  · exact exec_congr_of_fieldless o (o_mem hcode) _ _ t
  · exact exec_congr_addr o (o_mem hcode) _ _ t (congrArg (BitVec.ofNat 16) ha)
  · rw [hcode] at ho1
    obtain rfl : Instr.wr = o := Option.some.inj ho1
    exact exec_wr_congr _ _ t (congrArg (BitVec.ofNat 8) hd) (congrArg (BitVec.ofNat 16) ha)
  · rw [hcode] at ho1
    obtain rfl : Instr.push = o := Option.some.inj ho1
    exact exec_push_congr _ _ t (congrArg (BitVec.ofNat 8) hd)

end Sys2Proof.Proofs
end

section
/-! PROOFS. The statements of 40_access_port.md: the register accesses (R130, R131) and the accesses of `pc` (R134, R135). -/

namespace Sys2Proof.Proofs

open Sys2Proof Sys2Proof.Machine Sys2Proof.Claims

/-- GETB of a select that names a register returns what that register reads, zero-extended (R130). -/
theorem exec_getb_of_regOfSelect (f : AccessFields) (s : State) (r : Reg) (hr : regOfSelect f.idx = .ok r) :
    exec (.getb f) s = .next (s.returning (BitVec.ofNat 16 (s.readReg r).toNat)) := by
  rw [BitVec.ofNat_toNat]
  simp only [exec, execGetb, hr]

/-- SETB of a select that names a register writes that register (R131). -/
theorem exec_setb_of_regOfSelect (f : AccessFields) (s : State) (r : Reg) (hr : regOfSelect f.idx = .ok r) :
    exec (.setb f) s = .next (s.writeReg r f.data) := by
  simp only [exec, execSetb, hr]

/-- Settles O46: each of the five selects names its register, and Status reads with bit 5 forced. -/
theorem getbReturnsTheSelectedRegister : Obligations.GetbReturnsTheSelectedRegister := by
  intro f s v h
  simp only [List.mem_cons, List.not_mem_nil, or_false, Prod.mk.injEq] at h
  rcases h with ⟨hi, rfl⟩ | ⟨hi, rfl⟩ | ⟨hi, rfl⟩ | ⟨hi, rfl⟩ | ⟨hi, rfl⟩
  · exact exec_getb_of_regOfSelect f s .status (by rw [hi]; rfl)
  · exact exec_getb_of_regOfSelect f s .stack (by rw [hi]; rfl)
  · exact exec_getb_of_regOfSelect f s .accumulator (by rw [hi]; rfl)
  · exact exec_getb_of_regOfSelect f s .indexX (by rw [hi]; rfl)
  · exact exec_getb_of_regOfSelect f s .indexY (by rw [hi]; rfl)

/-- Settles O47: each of the five selects names its register, and Status is stored with bit 5 forced. -/
theorem setbWritesTheSelectedRegister : Obligations.SetbWritesTheSelectedRegister := by
  intro f s t h
  simp only [List.mem_cons, List.not_mem_nil, or_false, Prod.mk.injEq] at h
  rcases h with ⟨hi, rfl⟩ | ⟨hi, rfl⟩ | ⟨hi, rfl⟩ | ⟨hi, rfl⟩ | ⟨hi, rfl⟩
  · exact exec_setb_of_regOfSelect f s .status (by rw [hi]; rfl)
  · exact exec_setb_of_regOfSelect f s .stack (by rw [hi]; rfl)
  · exact exec_setb_of_regOfSelect f s .accumulator (by rw [hi]; rfl)
  · exact exec_setb_of_regOfSelect f s .indexX (by rw [hi]; rfl)
  · exact exec_setb_of_regOfSelect f s .indexY (by rw [hi]; rfl)

/-- Settles O52: GETPC is `State.returning` of `pc`, and SETPC is `State.writePc` of the address field. -/
theorem getpcAndSetpcReachThePc : Obligations.GetpcAndSetpcReachThePc :=
  fun _ _ => ⟨rfl, rfl⟩

end Sys2Proof.Proofs
end

section
/-! PROOFS. The statements of 41_arith_logic.md: ADC in binary and in decimal mode (R150, R153 to R155), and AND (R151). -/

namespace Sys2Proof.Proofs

open Sys2Proof Sys2Proof.Machine Sys2Proof.Claims

/-! ## What an instruction that writes A and flags alone keeps -/

/-- The frame of a unit that writes A and P alone (00_scope.md R11), and in P the listed bits alone. -/
theorem frame_of_writes_a_and_p (i : Instr) (s t : State) (bits : List Nat) (h : exec i s = .next t)
    (ht : t = { s with a := t.a, p := t.p }) (hu : ∀ f ∈ flagsWritten i, flagIndex f ∈ bits)
    (ha : ∀ k, accessWritesBit k i = false) :
    KeepsStatusBut bits s t ∧ t.pc = s.pc ∧ KeepsXYSp s t ∧ KeepsMemory s t ∧ KeepsLatchAndPorts s t := by
  refine ⟨fun k _ hk => exec_keeps_bit i s t h k (fun f hf e => hk (e ▸ hu f hf)) (ha k), ?_⟩
  rw [ht]
  exact ⟨rfl, ⟨rfl, rfl, rfl⟩, fun _ => rfl, rfl, rfl, rfl, rfl⟩

/-- A write of A keeps every flag. -/
@[simp] theorem writeReg_accumulator_flag (s : State) (v : Byte) (f : Flag) : (s.writeReg .accumulator v).flag f = s.flag f := rfl

/-- `setSignZero` sets N to bit 7 of the value (10_state.md R36). -/
theorem setSignZero_getLsbD_seven (s : State) (v : Byte) : (s.setSignZero v).p.getLsbD 7 = true ↔ 128 ≤ v.toNat := by
  rw [setSignZero_p, getLsbD_withFlag, getLsbD_withFlag, ← getLsbD_seven]
  rfl

/-- `setSignZero` sets Z when the value is 0 (10_state.md R31). -/
theorem setSignZero_getLsbD_one (s : State) (v : Byte) : (s.setSignZero v).p.getLsbD 1 = true ↔ v = 0#8 := by
  rw [setSignZero_p, getLsbD_withFlag]
  exact zeroOf_eq_true v

/-! ## ADC: each thing it writes, as arithmetic -/

section Adc

variable (op : ResolvedOperand) (s t : State) (h : exec (.adc op) s = .next t)
include h

/-- A is the low byte of the sum after the corrections of the mode. -/
theorem exec_adc_a :
    t.a.toNat = (adcFinal (s.p.getLsbD 3) s.a op.operandValue (s.p.getLsbD 0)).toNat % 256 := by
  cases h
  exact BitVec.toNat_setWidth ..

/-- C is 1 when the final sum exceeds the threshold of the mode. -/
theorem exec_adc_carry :
    t.p.getLsbD 0 = true ↔
      (if s.p.getLsbD 3 then 0x99 else 0xFF) < (adcFinal (s.p.getLsbD 3) s.a op.operandValue (s.p.getLsbD 0)).toNat := by
  have hc : t.flag .carry = adcCarry (s.flag .decimal) s.a op.operandValue (s.flag .carry) := by
    cases h; simp [State.readReg]
  change t.flag .carry = true ↔ _
  rw [hc]
  unfold adcCarry State.flag flagIndex
  cases s.p.getLsbD 3 <;> simp [BitVec.lt_def]

/-- Z is 1 when the low byte of the uncorrected sum is 0, in both modes (D11). -/
theorem exec_adc_zero :
    t.p.getLsbD 1 = true ↔ (s.a.toNat + op.operandValue.toNat + (s.p.getLsbD 0).toNat) % 256 = 0 := by
  have hz : t.flag .zero = adcZero s.a op.operandValue (s.flag .carry) := by
    cases h; simp [State.readReg]
  change t.flag .zero = true ↔ _
  rw [hz, adcZero, zeroOf_eq_true, ← BitVec.toNat_inj, BitVec.toNat_setWidth, adcSum_toNat]
  rfl

/-- N is bit 7 of the sum before the high-digit correction (D12, D21). -/
theorem exec_adc_sign :
    t.p.getLsbD 7 = true ↔
      128 ≤ (adcSigned (s.p.getLsbD 3) s.a op.operandValue (s.p.getLsbD 0)).toNat % 256 := by
  have hn : t.flag .sign = (adcSigned (s.flag .decimal) s.a op.operandValue (s.flag .carry)).getLsbD 7 := by
    cases h; simp [State.readReg]
  change t.flag .sign = true ↔ _
  rw [hn, getLsbD_seven_wide]
  rfl

/-- V is the formula of R154 on the sum N is taken from (D12). -/
theorem exec_adc_overflow :
    t.p.getLsbD 6 = true ↔ (128 ≤ s.a.toNat ↔ 128 ≤ op.operandValue.toNat) ∧
      ¬(128 ≤ s.a.toNat ↔ 128 ≤ (adcSigned (s.p.getLsbD 3) s.a op.operandValue (s.p.getLsbD 0)).toNat % 256) := by
  have hv : t.flag .overflow =
      overflowOf s.a op.operandValue (adcSigned (s.flag .decimal) s.a op.operandValue (s.flag .carry)) := by
    cases h; simp [State.readReg]
  change t.flag .overflow = true ↔ _
  rw [hv, overflowOf_iff]
  rfl

/-- ADC writes A and the flags C, Z, V and N, and nothing else. -/
theorem exec_adc_frame :
    KeepsStatusBut [0, 1, 6, 7] s t ∧ t.pc = s.pc ∧ KeepsXYSp s t ∧ KeepsMemory s t ∧ KeepsLatchAndPorts s t :=
  frame_of_writes_a_and_p (.adc op) s t _ h (by cases h; rfl) (by simp [flagsWritten, flagIndex]) (fun _ => rfl)

end Adc

/-! ## Binary mode -/

/-- In binary mode no sum is corrected. -/
theorem adcSigned_binary_toNat (a m : Byte) (c : Bool) : (adcSigned false a m c).toNat = a.toNat + m.toNat + c.toNat := by
  simp [adcSigned_toNat]

theorem adcFinal_binary_toNat (a m : Byte) (c : Bool) : (adcFinal false a m c).toNat = a.toNat + m.toNat + c.toNat := by
  simp [adcFinal_toNat, adcSigned_binary_toNat]

/-- The Overflow formula on the uncorrected sum says that the two's-complement sum does not fit in a byte (R154). -/
theorem overflow_formula_iff_signed_overflow (a m : Byte) (c : Bool) :
    ((128 ≤ a.toNat ↔ 128 ≤ m.toNat) ∧ ¬(128 ≤ a.toNat ↔ 128 ≤ (a.toNat + m.toNat + c.toNat) % 256)) ↔
      signedValue a + signedValue m + (c.toNat : Int) < -128 ∨ 127 < signedValue a + signedValue m + (c.toNat : Int) := by
  have ha := a.isLt
  have hm := m.isLt
  have hc : c.toNat ≤ 1 := c.toNat_le
  unfold signedValue
  split_ifs <;> omega

/-- Settles O32: no correction is made, so every flag is read off the one sum. -/
theorem adcBinaryIsAdditionModulo256 : Obligations.AdcBinaryIsAdditionModulo256 := by
  intro op s hd
  obtain ⟨t, h⟩ := exec_next (.adc op) s
  have hA := exec_adc_a op s t h
  have hC := exec_adc_carry op s t h
  have hZ := exec_adc_zero op s t h
  have hN := exec_adc_sign op s t h
  have hV := exec_adc_overflow op s t h
  rw [hd, adcFinal_binary_toNat] at hA hC
  rw [hd, adcSigned_binary_toNat] at hN hV
  refine ⟨t, h, hA, hC, ?_, ?_, hV.trans (overflow_formula_iff_signed_overflow ..), exec_adc_frame op s t h⟩
  · rw [hZ, ← hA, ← BitVec.toNat_inj]; rfl
  · rw [hN, hA]

/-! ## Decimal mode -/

/-- Settles O33: the two corrected sums of the statement are `adcSigned` and `adcFinal`. -/
theorem adcDecimalFollowsTheCorrectionSteps : Obligations.AdcDecimalFollowsTheCorrectionSteps := by
  intro op s hd sum low high hsum hlow hhigh
  obtain ⟨t, h⟩ := exec_next (.adc op) s
  have hA := exec_adc_a op s t h
  have hC := exec_adc_carry op s t h
  have hZ := exec_adc_zero op s t h
  have hN := exec_adc_sign op s t h
  have hV := exec_adc_overflow op s t h
  have hSigned : (adcSigned true s.a op.operandValue (s.p.getLsbD 0)).toNat = low := by
    rw [adcSigned_toNat, hlow, hsum]; simp
  have hFinal : (adcFinal true s.a op.operandValue (s.p.getLsbD 0)).toNat = high := by
    rw [adcFinal_toNat, hSigned, hhigh]; simp
  rw [hd, hFinal] at hA hC
  rw [hd, hSigned] at hN hV
  rw [← hsum] at hZ
  exact ⟨t, h, hA, hC, hZ, hN, hV, exec_adc_frame op s t h⟩

/-- The low-digit correction carries in base 10: from two BCD bytes it leaves the digits `d` and `e` of their decimal sum, 16 apart
(R150, R155). -/
theorem low_digit_correction (a m : Byte) (c : Nat) (ha : isBcd a) (hm : isBcd m) (hc : c ≤ 1) :
    ∃ d e : Nat, d ≤ 19 ∧ e ≤ 9 ∧ bcdValue a + bcdValue m + c = 10 * d + e ∧
      (if 9 < a.toNat % 16 + m.toNat % 16 + c then a.toNat + m.toNat + c + 6 else a.toNat + m.toNat + c) = 16 * d + e := by
  obtain ⟨haHigh, haLow⟩ := ha
  obtain ⟨hmHigh, hmLow⟩ := hm
  unfold bcdValue
  split_ifs
  · exact ⟨a.toNat / 16 + m.toNat / 16 + 1, a.toNat % 16 + m.toNat % 16 + c - 10, by omega, by omega, by omega, by omega⟩
  · exact ⟨a.toNat / 16 + m.toNat / 16, a.toNat % 16 + m.toNat % 16 + c, by omega, by omega, by omega, by omega⟩

/-- The high-digit correction carries in base 10: it leaves the last digit of `d` over the low digit `e`, and the sum exceeds 0x99
exactly when `d` has a digit more (R150, R155). -/
theorem high_digit_correction (d e : Nat) (hd : d ≤ 19) (he : e ≤ 9) :
    (if 0x99 < 16 * d + e then 16 * d + e + 96 else 16 * d + e) % 256 = 16 * (d % 10) + e ∧
      (0x99 < (if 0x99 < 16 * d + e then 16 * d + e + 96 else 16 * d + e) ↔ 10 ≤ d) := by
  split_ifs <;> omega

/-- Settles O34: the stored byte holds the last two digits of the decimal sum `10 * d + e`, and C tells whether `d` has a digit more. -/
theorem adcDecimalAddsValidBcd : Obligations.AdcDecimalAddsValidBcd := by
  intro op s hdec ha hm
  obtain ⟨t, h, hA, hC, -⟩ := adcDecimalFollowsTheCorrectionSteps op s hdec _ _ _ rfl rfl rfl
  obtain ⟨d, e, hd, he, hval, hlow⟩ := low_digit_correction s.a op.operandValue _ ha hm (Bool.toNat_le _)
  obtain ⟨hbyte, hcarry⟩ := high_digit_correction d e hd he
  rw [hlow, hbyte] at hA
  rw [hlow, hcarry] at hC
  rw [hval]
  refine ⟨t, h, ⟨?_, ?_⟩, ?_, hC.trans ?_⟩
  · omega
  · omega
  · unfold bcdValue; omega
  · omega

/-! ## AND -/

/-- Settles O35: AND sets Sign and Zero from the byte it writes to A. -/
theorem andMasksTheAccumulator : Obligations.AndMasksTheAccumulator := by
  intro op s
  obtain ⟨t, h⟩ := exec_next (.and op) s
  have ha : t.a = s.a &&& op.operandValue := by cases h; rfl
  have hp : t.p = (s.setSignZero t.a).p := by cases h; rfl
  refine ⟨t, h, fun k => ?_, ?_, ?_,
    frame_of_writes_a_and_p (.and op) s t _ h (by cases h; rfl) (by simp [flagsWritten, flagIndex]) (fun _ => rfl)⟩
  · rw [ha, BitVec.getLsbD_and]
  · rw [hp, setSignZero_getLsbD_seven]
  · rw [hp, setSignZero_getLsbD_one]

end Sys2Proof.Proofs
end

section
/-! PROOFS. The statements of 42_shift.md: ASL and LSR (R170 to R172). -/

namespace Sys2Proof.Proofs

open Sys2Proof Sys2Proof.Machine Sys2Proof.Claims

/-! ## What a write-back keeps -/

@[simp] theorem writeBack_p (s : State) (op : ResolvedOperand) (r : Byte) : (s.writeBack op r).p = s.p := by
  by_cases hm : op.mode = .accumulator
  · rw [writeBack_accumulator s op r hm, writeReg_accumulator_p]
  · rw [writeBack_memory s op r hm, write_p]

/-- A write-back reaches neither `pc`, X, Y and SP nor the latch and the ports. -/
theorem writeBack_frame (s : State) (op : ResolvedOperand) (r : Byte) :
    (s.writeBack op r).pc = s.pc ∧ KeepsXYSp s (s.writeBack op r) ∧ KeepsLatchAndPorts s (s.writeBack op r) := by
  by_cases hm : op.mode = .accumulator
  · rw [writeBack_accumulator s op r hm]
    exact ⟨rfl, ⟨rfl, rfl, rfl⟩, rfl, rfl, rfl, rfl⟩
  · rw [writeBack_memory s op r hm]
    exact ⟨rfl, ⟨rfl, rfl, rfl⟩, rfl, rfl, rfl, rfl⟩

/-! ## What both shifts do -/

/-- The state a shift leaves, from the bit it shifts out and its result: the two shifts differ in these alone (R171, R172). -/
def shifted (s : State) (op : ResolvedOperand) (out : Bool) (r : Byte) : State :=
  ((s.setFlag .carry out).setSignZero r).writeBack op r

theorem exec_asl (op : ResolvedOperand) (s : State) :
    exec (.asl op) s =
      .next (shifted s op ((aslWide op.operandValue).getLsbD 8) ((aslWide op.operandValue).setWidth 8)) := rfl

theorem exec_lsr (op : ResolvedOperand) (s : State) :
    exec (.lsr op) s = .next (shifted s op (op.operandValue.getLsbD 0) (lsrResult op.operandValue)) := rfl

section Shifted

variable (s : State) (op : ResolvedOperand) (out : Bool) (r : Byte)

/-- With the Accumulator tag the result goes to A, and nothing is stored (R170). -/
theorem shifted_to_accumulator (hm : op.mode = .accumulator) :
    (shifted s op out r).a = r ∧ KeepsMemory s (shifted s op out r) := by
  rw [shifted, writeBack_accumulator _ op r hm]
  exact ⟨rfl, fun _ => rfl⟩

/-- With every other tag the result goes to the effective address, and A is kept (R170). -/
theorem shifted_to_memory (hm : op.mode ≠ .accumulator) :
    (shifted s op out r).read op.effectiveAddress = r ∧ (shifted s op out r).a = s.a ∧
      KeepsMemoryBut op.effectiveAddress s (shifted s op out r) := by
  rw [shifted, writeBack_memory _ op r hm]
  refine ⟨?_, rfl, fun addr hne => ?_⟩
  · rw [State.read_write, if_pos rfl]
  · rw [State.read_write, if_neg hne, setSignZero_read, setFlag_read]

/-- C is the bit shifted out. -/
theorem shifted_carry : (shifted s op out r).p.getLsbD 0 = out := by
  rw [shifted, writeBack_p, setSignZero_p, setFlag_p, getLsbD_withFlag, getLsbD_withFlag, getLsbD_withFlag]
  rfl

/-- N is bit 7 of the result. -/
theorem shifted_sign : (shifted s op out r).p.getLsbD 7 = true ↔ 128 ≤ r.toNat := by
  rw [shifted, writeBack_p, setSignZero_getLsbD_seven]

/-- Z is 1 when the result is 0. -/
theorem shifted_zero : (shifted s op out r).p.getLsbD 1 = true ↔ r = 0#8 := by
  rw [shifted, writeBack_p, setSignZero_getLsbD_one]

/-- Beside A, memory and the flags C, Z and N a shift keeps the whole state (R171, R172). -/
theorem shifted_frame :
    KeepsStatusBut [0, 1, 7] s (shifted s op out r) ∧ (shifted s op out r).pc = s.pc ∧
      KeepsXYSp s (shifted s op out r) ∧ KeepsLatchAndPorts s (shifted s op out r) := by
  refine ⟨fun k _ hk => ?_, writeBack_frame ((s.setFlag .carry out).setSignZero r) op r⟩
  simp only [List.mem_cons, List.not_mem_nil, or_false, not_or] at hk
  obtain ⟨hc, hz, hn⟩ := hk
  simp [shifted, getLsbD_withFlag, flagIndex, hc, hz, hn]

end Shifted

/-! ## The obligations -/

/-- Settles O36: the low byte and bit 8 of the wide product are the result and the bit shifted out. -/
theorem aslShiftsLeftAndWritesBack : Obligations.AslShiftsLeftAndWritesBack := by
  intro op s
  refine ⟨_, _, exec_asl op s, aslWide_low _, shifted_to_accumulator s op _ _, shifted_to_memory s op _ _, ?_,
    shifted_sign .., shifted_zero .., shifted_frame ..⟩
  rw [shifted_carry, aslWide_carry]

/-- The halved operand is below 128. -/
theorem lsrResult_lt (m : Byte) : (lsrResult m).toNat < 128 := by
  have := m.isLt
  rw [lsrResult_eq, BitVec.toNat_ofNat]; omega

/-- Settles O37: N is 0 because a halved byte is below 128. -/
theorem lsrShiftsRightAndWritesBack : Obligations.LsrShiftsRightAndWritesBack := by
  intro op s
  refine ⟨_, _, exec_lsr op s, lsrResult_eq _, shifted_to_accumulator s op _ _, shifted_to_memory s op _ _, ?_, ?_,
    shifted_zero .., shifted_frame ..⟩
  · rw [shifted_carry, getLsbD_zero]
  · rw [Bool.eq_false_iff, ne_eq, shifted_sign, not_le]
    exact lsrResult_lt op.operandValue

end Sys2Proof.Proofs
end

section
/-! PROOFS. The statement of 43_branch.md: the eight conditional branches (R190 to R199). -/

namespace Sys2Proof.Proofs

open Sys2Proof Sys2Proof.Machine Sys2Proof.Claims

/-- A branch that is taken when its flag is 1 (BCS, BEQ, BMI, BVS: R192, R193, R195, R198). -/
theorem branch_on_flag_set (s : State) (f : Flag) (op : ResolvedOperand) :
    s.branch (s.flag f) op =
      { s with pc := if s.p.getLsbD (flagIndex f) = true then op.effectiveAddress else s.pc } := branch_eq s (s.flag f) op

/-- A branch that is taken when its flag is 0 (BCC, BNE, BPL, BVC: R191, R194, R196, R197). -/
theorem branch_on_flag_clear (s : State) (f : Flag) (op : ResolvedOperand) :
    s.branch (!s.flag f) op =
      { s with pc := if s.p.getLsbD (flagIndex f) = false then op.effectiveAddress else s.pc } := by
  simp only [branch_eq, State.flag, Bool.not_eq_true']

/-- Settles O38: each branch is one of the two kinds above, at the bit of its flag. -/
theorem branchTestsItsFlagAndWritesOnlyPc : Obligations.BranchTestsItsFlagAndWritesOnlyPc := by
  intro op s u bit taken h
  simp only [List.mem_cons, Prod.mk.injEq, List.not_mem_nil, or_false] at h
  obtain ⟨rfl, rfl, rfl⟩ | ⟨rfl, rfl, rfl⟩ | ⟨rfl, rfl, rfl⟩ | ⟨rfl, rfl, rfl⟩ | ⟨rfl, rfl, rfl⟩ | ⟨rfl, rfl, rfl⟩ |
    ⟨rfl, rfl, rfl⟩ | ⟨rfl, rfl, rfl⟩ := h
  · exact congrArg Host.Outcome.next (branch_on_flag_clear s .carry op)
  · exact congrArg Host.Outcome.next (branch_on_flag_set s .carry op)
  · exact congrArg Host.Outcome.next (branch_on_flag_set s .zero op)
  · exact congrArg Host.Outcome.next (branch_on_flag_clear s .zero op)
  · exact congrArg Host.Outcome.next (branch_on_flag_set s .sign op)
  · exact congrArg Host.Outcome.next (branch_on_flag_clear s .sign op)
  · exact congrArg Host.Outcome.next (branch_on_flag_clear s .overflow op)
  · exact congrArg Host.Outcome.next (branch_on_flag_set s .overflow op)

end Sys2Proof.Proofs
end

section
/-! PROOFS. The statements of 44_compare_bit.md: the three compares (R210 to R213) and BIT (R214). -/

namespace Sys2Proof.Proofs

open Sys2Proof Sys2Proof.Machine Sys2Proof.Claims

/-- The frame of a unit that writes P alone (00_scope.md R11), and in P the listed bits alone. -/
theorem frame_of_writes_p (i : Instr) (s t : State) (bits : List Nat) (h : exec i s = .next t)
    (ht : t = { s with p := t.p }) (hu : ∀ f ∈ flagsWritten i, flagIndex f ∈ bits)
    (ha : ∀ k, accessWritesBit k i = false) : KeepsStatusBut bits s t ∧ KeepsAllButStatus s t := by
  have hA : t.a = s.a := by rw [ht]
  obtain ⟨hP, hpc, hxy, hmem, hlatch⟩ := frame_of_writes_a_and_p i s t bits h (by rw [hA]; exact ht) hu ha
  exact ⟨hP, hpc, ⟨hA, hxy⟩, hmem, hlatch⟩

/-! ## The shared compare -/

section Compare

variable (s : State) (r m : Byte)

/-- A compare takes Carry from the borrow, and Sign and Zero from the truncated difference (R210). -/
theorem compare_eq_setSignZero :
    s.compare r m = (s.setFlag .carry (decide (m.toNat ≤ r.toNat))).setSignZero (r - m) := rfl

theorem compare_carry : (s.compare r m).p.getLsbD 0 = true ↔ m.toNat ≤ r.toNat := by
  rw [compare_eq_setSignZero, setSignZero_p, setFlag_p, getLsbD_withFlag, getLsbD_withFlag, getLsbD_withFlag]
  exact decide_eq_true_iff

theorem compare_zero : (s.compare r m).p.getLsbD 1 = true ↔ r = m := by
  rw [compare_eq_setSignZero, setSignZero_getLsbD_one]
  exact BitVec.sub_eq_iff_eq_add.trans (by rw [BitVec.zero_add])

theorem compare_sign : (s.compare r m).p.getLsbD 7 = true ↔ 128 ≤ (r.toNat + 256 - m.toNat) % 256 := by
  have hm := m.isLt
  rw [compare_eq_setSignZero, setSignZero_getLsbD_seven, BitVec.toNat_sub]
  omega

end Compare

/-- Each of the three units compares its own register with the operand value (R211 to R213, D9). -/
theorem exec_compare_unit (op : ResolvedOperand) (s : State) (u : ResolvedOperand → Instr) (r : Byte)
    (h : (u, r) ∈ [(Instr.cmp, s.a), (Instr.cpx, s.x), (Instr.cpy, s.y)]) :
    exec (u op) s = .next (s.compare r op.operandValue) ∧ flagsWritten (u op) = [.carry, .zero, .sign] ∧
      ∀ k, accessWritesBit k (u op) = false := by
  simp only [List.mem_cons, Prod.mk.injEq, List.not_mem_nil, or_false] at h
  obtain ⟨rfl, rfl⟩ | ⟨rfl, rfl⟩ | ⟨rfl, rfl⟩ := h <;> exact ⟨rfl, rfl, fun _ => rfl⟩

/-- Settles O39: each of the three units is the one compare, on its own register. -/
theorem compareSetsCarryZeroSignOnly : Obligations.CompareSetsCarryZeroSignOnly := by
  intro op s u r hu
  obtain ⟨h, hflags, haccess⟩ := exec_compare_unit op s u r hu
  exact ⟨_, h, compare_carry .., compare_zero .., compare_sign ..,
    frame_of_writes_p (u op) s _ _ h rfl (by simp [hflags, flagIndex]) haccess⟩

/-! ## BIT -/

/-- An AND is 0 exactly when no bit is 1 on both sides. -/
theorem and_eq_zero_iff_no_common_bit (m a : Byte) :
    m &&& a = 0#8 ↔ ∀ k : Nat, ¬(m.getLsbD k = true ∧ a.getLsbD k = true) := by
  have hbit (k : Nat) : ¬(m.getLsbD k = true ∧ a.getLsbD k = true) ↔ (m &&& a).getLsbD k = (0#8).getLsbD k := by
    rw [BitVec.getLsbD_and, BitVec.getLsbD_zero, Bool.eq_false_iff, ne_eq, Bool.and_eq_true]
  simp only [hbit]
  exact ⟨fun h k => by rw [h], fun h => BitVec.eq_of_getLsbD_eq fun k _ => h k⟩

section Bit

variable (op : ResolvedOperand) (s t : State) (h : exec (.bit op) s = .next t)
include h

/-- V is bit 6 of the tested value itself. -/
theorem exec_bit_overflow : t.p.getLsbD 6 = op.operandValue.getLsbD 6 := by
  have hv : t.flag .overflow = op.operandValue.getLsbD 6 := by
    cases h; simp [-BitVec.getLsbD_eq_getElem]
  exact hv

/-- N is bit 7 of the tested value itself. -/
theorem exec_bit_sign : t.p.getLsbD 7 = op.operandValue.getLsbD 7 := by
  have hn : t.flag .sign = op.operandValue.getLsbD 7 := by
    cases h; simp [-BitVec.getLsbD_eq_getElem]
  exact hn

/-- Z comes from the AND of the tested value with A. -/
theorem exec_bit_zero : t.p.getLsbD 1 = true ↔ op.operandValue &&& s.a = 0#8 := by
  have hz : t.flag .zero = zeroOf (op.operandValue &&& s.a) := by
    cases h; simp [State.readReg]
  change t.flag .zero = true ↔ _
  rw [hz]
  exact zeroOf_eq_true _

end Bit

/-- Settles O40: Z says that the AND is 0, so that the tested value and A have no bit in common. -/
theorem bitTestsTheOperandAgainstA : Obligations.BitTestsTheOperandAgainstA := by
  intro op s
  obtain ⟨t, h⟩ := exec_next (.bit op) s
  exact ⟨t, h, exec_bit_overflow op s t h, exec_bit_sign op s t h,
    (exec_bit_zero op s t h).trans (and_eq_zero_iff_no_common_bit ..),
    frame_of_writes_p (.bit op) s t _ h (by cases h; rfl) (by simp [flagsWritten, flagIndex]) (fun _ => rfl)⟩

end Sys2Proof.Proofs
end

section
/-! PROOFS. The statement of 45_flag_clear.md: CLC, CLD, CLI and CLV (R230 to R234). Each is one flag write, so what a flag write
does settles all four. -/

namespace Sys2Proof.Proofs

open Sys2Proof Sys2Proof.Machine Sys2Proof.Claims

/-- Each of the four units clears one flag, the one at the bit of P its rule names (R231 to R234). -/
theorem exec_flagClear_unit (op : ResolvedOperand) (s : State) (u : ResolvedOperand → Instr) (bit : Nat)
    (h : (u, bit) ∈ [(Instr.clc, 0), (Instr.cld, 3), (Instr.cli, 2), (Instr.clv, 6)]) :
    ∃ f, flagIndex f = bit ∧ exec (u op) s = .next (s.setFlag f false) := by
  simp only [List.mem_cons, Prod.mk.injEq, List.not_mem_nil, or_false] at h
  obtain ⟨rfl, rfl⟩ | ⟨rfl, rfl⟩ | ⟨rfl, rfl⟩ | ⟨rfl, rfl⟩ := h
  · exact ⟨.carry, rfl, rfl⟩
  · exact ⟨.decimal, rfl, rfl⟩
  · exact ⟨.interruptDisable, rfl, rfl⟩
  · exact ⟨.overflow, rfl, rfl⟩

section SetFlag

variable (s : State) (f : Flag) (b : Bool)

/-- A flag write keeps every bit of P but its own (10_state.md R28). -/
theorem setFlag_keepsStatusBut : KeepsStatusBut [flagIndex f] s (s.setFlag f b) := fun k _ hk => by
  rw [setFlag_p, getLsbD_withFlag, if_neg (List.ne_of_not_mem_cons hk)]

/-- Writing to a flag the value it has changes nothing. -/
theorem setFlag_eq_self (h : s.p.getLsbD (flagIndex f) = b) : s.setFlag f b = s := by
  have hp : withFlag s.p f b = s.p := BitVec.eq_of_getLsbD_eq fun k _ => by
    rw [getLsbD_withFlag]
    split_ifs with hk
    · rw [hk, h]
    · rfl
  rw [State.setFlag, hp]

end SetFlag

/-- Settles O41: each of the four units is one flag write of 0. -/
theorem clearUnitsClearExactlyOneFlag : Obligations.ClearUnitsClearExactlyOneFlag := by
  intro op s u bit hu
  obtain ⟨f, rfl, h⟩ := exec_flagClear_unit op s u bit hu
  have hclear : (s.setFlag f false).p.getLsbD (flagIndex f) = false := by rw [setFlag_p, getLsbD_withFlag, if_pos rfl]
  exact ⟨_, h, hclear, setFlag_keepsStatusBut s f false, rfl, setFlag_eq_self s f false⟩

end Sys2Proof.Proofs
end

section
/-! PROOFS. The statements of 46_jump.md: JMP (R250), JSR (R251), and the return the environment makes after a JSR (R252). -/

namespace Sys2Proof.Proofs

open Sys2Proof Sys2Proof.Machine Sys2Proof.Claims

/-- Settles O42: JMP is `State.writePc`, with no case on the tag. -/
theorem jmpWritesOnlyPc : Obligations.JmpWritesOnlyPc := fun _ _ => rfl

/-! ## The two bytes of an address -/

section Bytes

variable (w : Wide)

theorem high_byte_toNat : (w.extractLsb' 8 8).toNat = w.toNat / 256 := by
  have hw := w.isLt
  rw [BitVec.extractLsb'_toNat, Nat.shiftRight_eq_div_pow]
  omega

theorem low_byte_toNat : (w.extractLsb' 0 8).toNat = w.toNat % 256 := by
  rw [BitVec.extractLsb'_toNat, Nat.shiftRight_zero]

/-- The return sequence puts the address together again from its two bytes (R252). -/
theorem high_byte_mul_add_low_byte :
    (w.extractLsb' 8 8).setWidth 16 * 256#16 + (w.extractLsb' 0 8).setWidth 16 = w := by
  have hw := w.isLt
  apply BitVec.eq_of_toNat_eq
  rw [BitVec.toNat_add, BitVec.toNat_mul, toNat_returned, toNat_returned, high_byte_toNat, low_byte_toNat, BitVec.toNat_ofNat]
  omega

end Bytes

/-! ## Two pushes in a row -/

section TwoPushes

variable (s : State) (u v : Byte)

/-- The second of two pushes leaves the byte of the first in place. -/
theorem push_push_read_first : ((s.push u).push v).read (stackAddr s.sp) = u := by
  have hne : stackAddr s.sp ≠ stackAddr (s.sp - 1) := by simpa using stackAddr_ne_of_lt s.sp 0 (by decide)
  rw [State.read_push, push_sp, if_neg hne, State.read_push, if_pos rfl]

theorem push_push_read_second : ((s.push u).push v).read (stackAddr (s.sp - 1)) = v := by
  rw [State.read_push, push_sp, if_pos rfl]

theorem push_push_read_of_ne (addr : Addr) (hu : addr ≠ stackAddr s.sp) (hv : addr ≠ stackAddr (s.sp - 1)) :
    ((s.push u).push v).read addr = s.read addr := by
  rw [State.read_push, push_sp, if_neg hv, State.read_push, if_neg hu]

/-- Two pops undo two pushes on SP. -/
theorem push_push_popped_popped_sp : ((s.push u).push v).popped.popped.sp = s.sp := by
  rw [popped_sp, popped_sp, push_sp, push_sp, BitVec.sub_add_cancel, BitVec.sub_add_cancel]

/-- The second of two pops takes the byte of the first of two pushes. -/
theorem popValue_popped_push_push : ((s.push u).push v).popped.popValue = u := by
  have hsp : ((s.push u).push v).popped.sp + 1 = s.sp := push_push_popped_popped_sp s u v
  rw [State.popValue, hsp, popped_read, push_push_read_first]

end TwoPushes

/-! ## JSR and the return from it -/

/-- What JSR leaves before it writes `pc`: `pc - 1` modulo 65536 pushed, high byte first (R251; D14). -/
def returnPushed (s : State) : State :=
  (s.push ((s.pc - 1).extractLsb' 8 8)).push ((s.pc - 1).extractLsb' 0 8)

theorem exec_jsr (op : ResolvedOperand) (s : State) :
    exec (.jsr op) s = .next ((returnPushed s).writePc op.effectiveAddress) := rfl

/-- Settles O43: what two pushes leave at their own bytes and at every other, with the bytes of `pc - 1`. -/
theorem jsrPushesPcMinusOneAndJumps : Obligations.JsrPushesPcMinusOneAndJumps := by
  intro op s
  have hdec : (s.sp - 1).toNat = (s.sp.toNat + 255) % 256 := by bv_omega
  have hsp : (s.sp - 1 - 1).toNat = (s.sp.toNat + 254) % 256 := by bv_omega
  have hpc : (s.pc - 1).toNat = (s.pc.toNat + 65535) % 65536 := by bv_omega
  refine ⟨_, exec_jsr op s, rfl, hsp, stackAddr_toNat s.sp, ?_, ?_, ?_, ?_, rfl, rfl, rfl, rfl, rfl, rfl, rfl, rfl⟩
  · rw [stackAddr_toNat, hdec]
  · rw [writePc_read, returnPushed, push_push_read_first, high_byte_toNat, hpc]
  · rw [writePc_read, returnPushed, push_push_read_second, low_byte_toNat, hpc]
  · exact fun addr hhigh hlow => push_push_read_of_ne s _ _ addr hhigh hlow

/-- A state in which `pc` and SP are given back differs in memory and `rdata` alone, when nothing else changed. -/
theorem eq_of_pc_and_sp_restored {s t : State} (h : t = { s with pc := t.pc, sp := t.sp, mem := t.mem, rdata := t.rdata })
    (hpc : t.pc = s.pc) (hsp : t.sp = s.sp) : t = { s with mem := t.mem, rdata := t.rdata } := by
  rwa [hpc, hsp] at h

/-- Settles O44: the two pops take the two bytes back, low byte first, and give SP back; the address made from them is `pc - 1`. -/
theorem returnSequenceUndoesJsr : Obligations.ReturnSequenceUndoesJsr := by
  intro op s f
  have hlow : (returnPushed s).popValue = (s.pc - 1).extractLsb' 0 8 := popValue_push ..
  have hhigh : (returnPushed s).popped.popValue = (s.pc - 1).extractLsb' 8 8 := popValue_popped_push_push ..
  have hsp : (returnPushed s).popped.popped.sp = s.sp := push_push_popped_popped_sp ..
  have hpc : (returnPushed s).popped.popValue.setWidth 16 * 256#16 + (returnPushed s).popValue.setWidth 16 + 1#16 = s.pc := by
    rw [hlow, hhigh, high_byte_mul_add_low_byte]
    exact BitVec.sub_add_cancel s.pc 1
  exact ⟨_, _, _, _, _, exec_jsr op s, rfl, rfl, rfl, rfl, _, rfl, eq_of_pc_and_sp_restored rfl hpc hsp⟩

end Sys2Proof.Proofs
end

section
/-! PROOFS. The statement of 47_load.md: LDA, LDX and LDY (R270 to R273). -/

namespace Sys2Proof.Proofs

open Sys2Proof Sys2Proof.Machine Sys2Proof.Claims

/-- `setSignZero` keeps every bit of P but Zero and Sign (10_state.md R31, R36). -/
theorem setSignZero_keepsStatusBut (s : State) (v : Byte) : KeepsStatusBut [1, 7] s (s.setSignZero v) := by
  intro k _ hk
  obtain ⟨hz, hn⟩ : k ≠ flagIndex .zero ∧ k ≠ flagIndex .sign := by simpa [flagIndex] using hk
  rw [setSignZero_p, getLsbD_withFlag, if_neg hz, getLsbD_withFlag, if_neg hn]

/-- Each of the three units copies the operand value to its own register, then takes Sign and Zero from it (R270 to R273, D9). -/
theorem exec_load_unit (op : ResolvedOperand) (s : State) (u : ResolvedOperand → Instr) (loaded : State)
    (h : (u, loaded) ∈ [(Instr.lda, { s with a := op.operandValue }), (Instr.ldx, { s with x := op.operandValue }),
      (Instr.ldy, { s with y := op.operandValue })]) :
    exec (u op) s = .next (loaded.setSignZero op.operandValue) ∧ loaded.p = s.p := by
  simp only [List.mem_cons, Prod.mk.injEq, List.not_mem_nil, or_false] at h
  obtain ⟨rfl, rfl⟩ | ⟨rfl, rfl⟩ | ⟨rfl, rfl⟩ := h <;> exact ⟨rfl, rfl⟩

/-- Settles O45: what `setSignZero` does to P, after a register write that keeps P. -/
theorem loadCopiesTheOperandAndSetsSignZero : Obligations.LoadCopiesTheOperandAndSetsSignZero := by
  intro op s u loaded hu
  obtain ⟨h, hp⟩ := exec_load_unit op s u loaded hu
  have hkeep : KeepsStatusBut [1, 7] s (loaded.setSignZero op.operandValue) := fun k hk hbit =>
    hp ▸ setSignZero_keepsStatusBut loaded op.operandValue k hk hbit
  exact ⟨_, h, rfl, setSignZero_getLsbD_seven .., setSignZero_getLsbD_one .., hkeep⟩

end Sys2Proof.Proofs
end

section
/-! PROOFS. The statements of 60_exceptions.md: the halt (R290 to R296), what a checked run makes of it (R294), and the block between
transactions (R310). -/

namespace Sys2Proof.Proofs

open Sys2Proof Sys2Proof.Machine Sys2Proof.Claims

/-! ## Idle and halted -/

/-- Settles O11: nothing pending is nothing issued. -/
theorem idleBlockHoldsItsState : Obligations.IdleBlockHoldsItsState := by
  intro s hp
  simp [step, issued, hp]

/-- Every transaction but a reset is a word of one of the ports, with a decoding. -/
theorem exists_decodeTransaction (w : Transaction) (hw : w ≠ .reset) : ∃ d, decodeTransaction w = some d := by
  cases w with
  | reset => exact absurd rfl hw
  | command cw => exact ⟨_, rfl⟩
  | access aw => exact ⟨_, rfl⟩

/-- Settles O8: while nothing is pending every step is idle, and a pending word is ignored. -/
theorem haltedBlockNeverLeavesTheHaltWithoutReset : Obligations.HaltedBlockNeverLeavesTheHaltWithoutReset := by
  intro k
  induction k with
  | zero => exact fun s _ _ => rfl
  | succ k ih =>
    intro s hh hr
    cases hp : s.pending with
    | nil =>
      rw [run_succ k s s (idleBlockHoldsItsState s hp), ih s hh hr, hp]
      simp
    | cons w rest =>
      obtain ⟨hw, hrest⟩ : Transaction.reset ≠ w ∧ Transaction.reset ∉ rest := by simpa [hp] using hr
      obtain ⟨d, hd⟩ := exists_decodeTransaction w hw.symm
      rw [run_succ k s _ (step_ignored s w rest d hp hd hh), ih (s.accept rest) hh hrest, accept_rdata, ite_self]
      simp [State.accept]

/-! ## The step that halts -/

/-- A step that leaves a running block halted did nothing but take a violation, of the decoder or of an instruction (R291). -/
theorem step_halting (s t : State) (w : Transaction) (rest : List Transaction) (hp : s.pending = w :: rest)
    (hh : s.halted = false) (h : step s = .next t) (ht : t.halted = true) : ∃ c, t = (s.accept rest).raise c := by
  rcases step_cases s t h with ⟨hnil, _⟩ | ⟨_, _, rfl⟩ | ⟨_, _, _, _, htrue, _⟩ | ⟨_, _, c, hp', _, _, rfl⟩ |
    ⟨_, _, i, hp', _, _, he⟩
  · simp [hp] at hnil
  · simp at ht
  · simp [hh] at htrue
  · obtain ⟨rfl, rfl⟩ := List.cons_eq_cons.mp (hp.symm.trans hp')
    exact ⟨c, rfl⟩
  · obtain ⟨rfl, rfl⟩ := List.cons_eq_cons.mp (hp.symm.trans hp')
    rcases exec_keeps_latch_or_raises i (s.accept rest) t he with ⟨hkeep, _⟩ | hraise
    · simp [ht, hh] at hkeep
    · exact hraise

/-- Settles O16: a halting step is `State.raise` on the accepted word, and `raise` leaves one of the six causes. -/
theorem haltingStepWritesOnlyTheLatch : Obligations.HaltingStepWritesOnlyTheLatch := by
  intro s t w rest hp hh h ht
  obtain ⟨c, rfl⟩ := step_halting s t w rest hp hh h ht
  rcases raise_latchOk (s.accept rest) c with ⟨hrun, _⟩ | ⟨_, hcause⟩
  · cases hrun
  · exact ⟨rfl, hcause⟩

/-! ## Which instruction halts -/

/-- No field of an execution unit can hold an unassigned code (30_encoding.md R97). -/
theorem wellFormed_of_isUnit (i : Instr) (hu : isUnit i = true) : i.wellFormed = true := by
  cases i with
  | getb f | setb f | getf f | setf f | getpc f | setpc f | rd f | wr f | push f | pop f => cases hu
  | _ => rfl

/-- An instruction run on a running block halts it exactly when it is ill-formed: the register and flag accesses by their cases, every
other instruction because it is well formed and keeps the latch. -/
theorem exec_halted_iff (i : Instr) (s t : State) (hh : s.halted = false) (h : exec i s = .next t) :
    t.halted = true ↔ i.wellFormed = false := by
  cases hu : isUnit i with
  | true => simp [exec_unit_halted i s t hu h, wellFormed_of_isUnit i hu, hh]
  | false =>
    cases i with
    | getb f =>
      rcases execGetb_cases f s with ⟨hi, r, _, e⟩ | ⟨hi, e⟩ <;>
        (rw [exec, e] at h; cases h; simp [Instr.wellFormed, registerSelectOk, hi, hh])
    | setb f =>
      rcases execSetb_cases f s with ⟨hi, r, _, e⟩ | ⟨hi, e⟩ <;>
        (rw [exec, e] at h; cases h; simp [Instr.wellFormed, registerSelectOk, hi, hh])
    | getf f =>
      rcases execGetf_cases f s with ⟨hi, fl, _, e⟩ | ⟨hi, e⟩ <;>
        (rw [exec, e] at h; cases h; simp [Instr.wellFormed, flagIndexOk, hi, hh])
    | setf f =>
      rcases execSetf_cases f s with ⟨hi, fl, b, _, hd, e⟩ | ⟨hi, hd, e⟩ | ⟨hi, e⟩ <;>
        (rw [exec, e] at h; cases h)
      · cases b <;> simp [Instr.wellFormed, flagIndexOk, flagValueOk, hi, hd, hh]
      · simp [Instr.wellFormed, flagIndexOk, flagValueOk, hi, hd]
      · simp [Instr.wellFormed, flagIndexOk, hi]
    | getpc f | setpc f | rd f | wr f | push f | pop f => cases h; simp [Instr.wellFormed, hh]
    | _ => cases hu

/-- Settles O22: every instruction answers a state, halted as `exec_halted_iff` says. -/
theorem instructionHaltsExactlyWhenIllFormed : Obligations.InstructionHaltsExactlyWhenIllFormed := by
  intro i s hh
  obtain ⟨t, h⟩ := exec_next i s
  exact ⟨⟨t, h, exec_halted_iff i s t hh h⟩, wellFormed_of_isUnit i⟩

/-! ## Checked runs -/

/-- Every run answers a state. -/
theorem run_next (k : Nat) (s : State) : ∃ t, core.run k s = .next t := by
  induction k generalizing s with
  | zero => exact ⟨s, rfl⟩
  | succ k ih =>
    obtain ⟨u, hu⟩ := everyStepAnswersANextState s
    rw [run_succ k s u hu]
    exact ih u

/-- The block is running now and after each of the next `k` steps. -/
def RunningThrough (k : Nat) (s : State) : Prop := ∀ j, j ≤ k → ∀ t, core.run j s = .next t → t.halted = false

theorem runningThrough_zero (s : State) : RunningThrough 0 s ↔ s.halted = false := by
  constructor
  · exact fun h => h 0 le_rfl s rfl
  · intro hh j hj t ht
    obtain rfl := Nat.le_zero.mp hj
    cases ht
    exact hh

theorem runningThrough_succ (k : Nat) (s u : State) (hu : step s = .next u) :
    RunningThrough (k + 1) s ↔ s.halted = false ∧ RunningThrough k u := by
  constructor
  · exact fun h => ⟨h 0 (Nat.zero_le _) s rfl,
      fun j hj t ht => h (j + 1) (Nat.succ_le_succ hj) t ((run_succ j s u hu).trans ht)⟩
  · rintro ⟨hs, hrun⟩ (_ | j) hj t ht
    · cases ht; exact hs
    · exact hrun j (Nat.le_of_succ_le_succ hj) t ((run_succ j s u hu).symm.trans ht)

/-- One checked step of a checked run: a halt ends it, otherwise it goes on (R294). -/
theorem checkedRun_succ (k : Nat) (s u : State) (hu : step s = .next u) :
    checkedRun (k + 1) s = if u.halted then .fault (.preconditionViolation u.haltCause) else checkedRun k u := by
  cases hh : u.halted <;> simp [checkedRun, checkedStep, hu, hh]

/-- A checked run from a running block answers the plain run's state, and answers it exactly when no halt is on the way. -/
theorem checkedRun_eq_next_iff (k : Nat) (s t : State) (hh : s.halted = false) :
    checkedRun k s = .next t ↔ RunningThrough k s ∧ core.run k s = .next t := by
  induction k generalizing s with
  | zero => exact (and_iff_right ((runningThrough_zero s).mpr hh)).symm
  | succ k ih =>
    obtain ⟨u, hu⟩ := everyStepAnswersANextState s
    rw [checkedRun_succ k s u hu, runningThrough_succ k s u hu, run_succ k s u hu]
    cases huh : u.halted with
    | false => simp [ih u huh, hh]
    | true =>
      have hstop : ¬ RunningThrough k u := fun h => by simp [h 0 (Nat.zero_le _) u rfl] at huh
      simp [hstop]

/-- Settles O17: `checkedRun_eq_next_iff`, and that a plain run always answers a state. -/
theorem checkedRunSucceedsExactlyWhenNothingHalts : Obligations.CheckedRunSucceedsExactlyWhenNothingHalts := by
  intro k s hh
  have hiff (t : State) := checkedRun_eq_next_iff k s t hh
  refine ⟨⟨fun ⟨t, ht⟩ => ((hiff t).mp ht).1, fun hrun => ?_⟩, fun t ht => ((hiff t).mp ht).2⟩
  obtain ⟨t, ht⟩ := run_next k s
  exact ⟨t, (hiff t).mpr ⟨hrun, ht⟩⟩

end Sys2Proof.Proofs
end

section
/-! PROOFS. The statement of 70_reset_and_hazards.md on reset (R330, R331). -/

namespace Sys2Proof.Proofs

open Sys2Proof Sys2Proof.Machine

/-- Settles O9: the reset transaction is `State.afterReset`, whatever the latch. -/
theorem resetGivesTheConstructionStateFromAnyState : Obligations.ResetGivesTheConstructionStateFromAnyState := fun s rest hp =>
  ⟨_, step_reset s rest hp, rfl, rfl, rfl, rfl, rfl, rfl, rfl, afterReset_read rest, rfl, rfl, rfl⟩

end Sys2Proof.Proofs
end

section
/-! PROOFS. The statements about the reference harness (95_test_vectors.md section 4.1; 70_reset_and_hazards.md R341, R342, R344). -/

namespace Sys2Proof.Proofs

open Sys2Proof Sys2Proof.Machine Sys2Proof.Claims

/-! ## Issuing a transaction -/

/-- A word issued now to a running block runs the instruction it decodes to, and what was pending stays so. -/
theorem transact_decoded (w : Transaction) (i : Instr) (s t : State) (hh : s.halted = false)
    (hd : decodeTransaction w = some (.ok i)) (h : exec i { s with rdata := none } = .next t) : transact w s = some t := by
  have hs : step { s with pending := w :: s.pending } = .next t :=
    (step_decoded { s with pending := w :: s.pending } w s.pending i rfl hd hh).trans h
  simp only [transact, hs]

/-- A read access asked of a running block answers the value its operation returns. -/
theorem ask_eq (i : Instr) (s t : State) (v : Wide) (hh : s.halted = false)
    (h : exec i { s with rdata := none } = .next (t.returning v)) : ask i s = some (v, t.returning v) := by
  simp only [ask, transact_decoded _ i s _ hh (decodeGivesBackEveryEncodedInstruction i) h, returning_rdata]

/-! ## Resolving an operand -/

/-- The harness reads the byte at a memory tag's address (section 4.1). -/
theorem resolve_memory (e : HarnessEntry) (s : State) (hh : s.halted = false)
    (he : e.tag = .absolute ∨ e.tag = .zeroPageAbsolute) :
    resolve e s = some (⟨e.tag, s.read e.arg, e.arg⟩, s.returning ((s.read e.arg).setWidth 16)) := by
  have hask := ask_eq (.rd (fieldsOf 0 e.arg)) s s ((s.read e.arg).setWidth 16) hh rfl
  rcases he with he | he <;>
    simp only [resolve, he, hask, BitVec.setWidth_setWidth_of_le _ (by decide : 8 ≤ 16), BitVec.setWidth_eq]

/-- The harness reads `A` for the Accumulator tag (section 4.1). -/
theorem resolve_accumulator (e : HarnessEntry) (s : State) (hh : s.halted = false) (he : e.tag = .accumulator) :
    resolve e s = some (⟨e.tag, s.a, 0⟩, s.returning (s.a.setWidth 16)) := by
  have hask := ask_eq (.getb (fieldsOf 2 0)) s s (s.a.setWidth 16) hh rfl
  simp only [resolve, he, hask, BitVec.setWidth_setWidth_of_le _ (by decide : 8 ≤ 16), BitVec.setWidth_eq]

/-- Settles O59: the two memory tags and Accumulator by their reads, the other three without one. -/
theorem harnessResolvesWhatTheDriverOwes : Obligations.HarnessResolvesWhatTheDriverOwes := by
  intro e s hh hr
  cases he : e.tag with
  | immediate | implied | relative =>
    exact ⟨_, _, by rw [resolve, he], rfl, by simp [DriverContract, owedOperand], rfl, by simp⟩
  | absolute | zeroPageAbsolute =>
    exact ⟨_, _, resolve_memory e s hh (by simp [he]), he, by simp [DriverContract, owedOperand, he], rfl, by simp⟩
  | accumulator =>
    exact ⟨_, _, resolve_accumulator e s hh he, he, by simp [DriverContract, owedOperand, he], rfl, by simp⟩
  | indexed | zeroPageIndexed | indirect | preIndexedIndirect | postIndexedIndirect => simp [he, harnessResolves] at hr

/-! ## One entry -/

/-- Settles O60: SETPC gives the advanced state, and resolving changes it in `rdata` alone, so the command runs in that state. -/
theorem harnessAdvancesPcBeforeTheCommand : Obligations.HarnessAdvancesPcBeforeTheCommand := by
  intro pc e s hh hr hule
  obtain ⟨u, hu⟩ := exists_unit_of_le _ hule
  have hpc : pc + BitVec.ofNat 16 e.length = BitVec.ofNat 16 (pc.toNat + e.length) := by
    rw [BitVec.ofNat_add, BitVec.ofNat_toNat, BitVec.setWidth_eq]
  generalize hs1 : ({ s with pc := BitVec.ofNat 16 (pc.toNat + e.length), rdata := none } : State) = s1
  have hh1 : s1.halted = false := by rw [← hs1]; exact hh
  have hset : transact (encode (.setpc (fieldsOf 0 (pc + BitVec.ofNat 16 e.length)))) s = some s1 := by
    refine transact_decoded _ _ s s1 hh (decodeGivesBackEveryEncodedInstruction _) ?_
    rw [hpc, ← hs1]; rfl
  obtain ⟨op, s2, hres, _, _, hs2, _⟩ := harnessResolvesWhatTheDriverOwes e s1 hh1 hr
  obtain ⟨t, ht⟩ := exec_next (u op) s1
  have hh2 : s2.halted = false := by rw [hs2]; exact hh1
  have hclear : ({ s2 with rdata := none } : State) = s1 := by rw [hs2, ← hs1]
  have hcmd : transact (.command (commandWord e.unit op)) s2 = some t :=
    transact_decoded _ (u op) s2 t hh2 (decodeTransaction_commandWord e.unit op u hu) (hclear ▸ ht)
  have hkeep := exec_unit_halted _ s1 t (isUnit_of_mem_unitsInOrder u (List.mem_of_getElem? hu) op) ht
  exact ⟨u, op, s2, t, hu, hres, by simp only [harnessCommand, hset, hres, hcmd], ht, hkeep.trans hh1⟩

end Sys2Proof.Proofs
end

section
/-! PROOFS. The words written out in the examples of the rule files (30_encoding.md R91 to R93, R98, R99). -/

namespace Sys2Proof.Proofs

open Sys2Proof

/-- Settles O5: fourteen closed words, each decoded by evaluation. -/
theorem wordsOfTheSpecDecodeAsWritten : Obligations.WordsOfTheSpecDecodeAsWritten :=
  ⟨rfl, rfl, rfl, rfl, rfl, rfl, rfl, rfl, rfl, rfl, rfl, rfl, rfl, rfl⟩

end Sys2Proof.Proofs
end
